-- ==== Sys2Proof/Word.lean ====
section
/-! DEFINITION. The word types of ETC1TP (00_scope.md R7, R8): a register-port word, a byte of host memory, a 64-bit
code. Bits are numbered from 0 at the least significant bit. -/

namespace Sys2Proof

/-- A word of the register port, 32 bits (00_scope.md R7). A gather-buffer entry has the same width (10_state.md R40). -/
abbrev Word := BitVec 32

/-- One byte of host memory (20_memory.md R60). -/
abbrev Byte := BitVec 8

/-- A 64-bit code: the alpha code `acc` or the colour code `ccode` (10_state.md R41, R42). -/
abbrev Code := BitVec 64

end Sys2Proof
end

