-- ==== Sys2Proof/Config.lean ====
section
/-! DEFINITION. What an implementation or the platform fixes (00_scope.md R7, 10_state.md R45): the quantizer `Q` and the
port base `REG_BASE`, and the free values of the model. None of the constants below has a body, so no proof can see a
value of one. -/

namespace Sys2Proof

/-- One RGB triple sent to the quantizer (42_block_encoder.md R155). -/
structure Rgb where
  r : Byte
  g : Byte
  b : Byte
  deriving DecidableEq, Repr

/-- The external quantizer (00_scope.md R6, R13, 20_memory.md R62): sixteen RGB values in gather order and the quality level to
a 64-bit colour code. Total and deterministic; nothing else is assumed of it. What a quality level means (the parameter
QualityMeaning of R7) is inside it. Notes: log 6. -/
opaque Config.Q (rgb : Vector Rgb 16) (quality : BitVec 2) : Code

/-- The base of the register port in the platform's address space (20_memory.md R71, REG_BASE, OPEN). No step reads it: the
model's accesses carry port offsets. Notes: log 7. -/
opaque Config.regBase : BitVec 64

/-- The platform address of a port offset (20_memory.md R71). -/
def Config.regAddress (offset : Nat) : Nat := Config.regBase.toNat + offset

/-- FREE VALUE (log 12): a draw between two values, one for each index. -/
opaque Config.drawBit : Nat → Bool

/-- FREE VALUE (log 9, log 12): the four bytes of a pixel read, one for each index. -/
opaque Config.drawPixel : Nat → Word

end Sys2Proof
end

