-- ==== Sys2Proof/Syntax.lean ====
section
/-! DEFINITION. The syntax: the eleven rows of the opcode table, the register names of the port map, the host's port
accesses and the host-script lines. -/

namespace Sys2Proof

/-- The instructions of ETC1TP (00_scope.md R3): five host commands (30_encoding.md R81), then the six micro-operations
of the sequencer (R84). None has an operand field (R80, R83). -/
inductive Instr where
  | nop | encodeImage | encodeBlock | releaseBuffer | ackError
  | gather | alphaPack | emitAlpha | quantize | emitColor | advance
  deriving DecidableEq, Repr

/-- The two encoded forms (30_encoding.md R80, R84): a command word, or a selection by the STATUS word. -/
inductive Format where
  | cmd | phase
  deriving DecidableEq, Repr

/-- The form an instruction is encoded in. -/
def Instr.format : Instr → Format
  | .nop | .encodeImage | .encodeBlock | .releaseBuffer | .ackError => .cmd
  | .gather | .alphaPack | .emitAlpha | .quantize | .emitColor | .advance => .phase

/-- STATUS.STATE (10_state.md R23). -/
inductive RunState where
  | idle | busy | done | error
  deriving DecidableEq, Repr

/-- STATUS.PHASE (10_state.md R25). The value 7 is never produced (30_encoding.md R85) and has no constructor. -/
inductive Phase where
  | none | gather | alphaPack | emitAlpha | quantize | emitColor | advance
  deriving DecidableEq, Repr

/-- STATUS.ERR_CODE (10_state.md R26, 60_exceptions.md R191). The values 7 to 15 are never produced and have no
constructor. -/
inductive ErrCode where
  | none | illegalCmd | badState | dimension | range | outputSize | overlap
  deriving DecidableEq, Repr

/-- The cursor's `mode` (10_state.md R36): which command runs. -/
inductive Mode where
  | image | block
  deriving DecidableEq, Repr

/-- The registers of the port map (10_state.md R20). -/
inductive Reg where
  | cmd | status | width | height | config | blockX | blockY
  | srcBaseLo | srcBaseHi | srcLenLo | srcLenHi | outBaseLo | outBaseHi | outCapLo | outCapHi
  | outLenLo | outLenHi | blocksDone
  deriving DecidableEq, Repr

/-- The access column of the port map (10_state.md R20). -/
inductive RegAccess where
  | writeOnly | readOnly | readWrite
  deriving DecidableEq, Repr

/-- Each register's access (10_state.md R20). -/
def Reg.access : Reg → RegAccess
  | .cmd => .writeOnly
  | .status | .outLenLo | .outLenHi | .blocksDone => .readOnly
  | .width | .height | .config | .blockX | .blockY
  | .srcBaseLo | .srcBaseHi | .srcLenLo | .srcLenHi | .outBaseLo | .outBaseHi | .outCapLo | .outCapHi => .readWrite

/-- One host access to the register port (20_memory.md R69, 30_encoding.md R92): its width in bits and its byte offset. -/
inductive Access where
  | read  (width : Nat) (offset : Nat)
  | write (width : Nat) (offset : Nat) (data : Word)
  deriving DecidableEq, Repr

/-- The 64-bit registers a host script writes as a LO and HI pair (30_encoding.md R91). -/
inductive Reg64 where
  | srcBase | srcLen | outBase | outCap
  deriving DecidableEq, Repr

/-- The LO half of a pair. -/
def Reg64.lo : Reg64 → Reg
  | .srcBase => .srcBaseLo
  | .srcLen => .srcLenLo
  | .outBase => .outBaseLo
  | .outCap => .outCapLo

/-- The HI half of a pair. -/
def Reg64.hi : Reg64 → Reg
  | .srcBase => .srcBaseHi
  | .srcLen => .srcLenHi
  | .outBase => .outBaseHi
  | .outCap => .outCapHi

/-- A host-script line (30_encoding.md R90) or pseudo-line (R91). -/
inductive Line where
  | w (reg : Reg) (value : Word)
  | r (reg : Reg)
  | cmd (i : Instr)
  | wait (targets : List RunState)
  | w64 (x : Reg64) (v : BitVec 64)
  | setup (w h : Word) (alpha : Bool) (quality : BitVec 2) (src srcLen out cap : BitVec 64)
  | encode
  | encodeBlk (bx : Word) (y : Word)
  | release
  deriving DecidableEq, Repr

/-- What a script line stands for at the register port (30_encoding.md R92): one access, or a loop of reads of STATUS. -/
inductive Transaction where
  | access (a : Access)
  | wait (targets : List RunState)
  deriving DecidableEq, Repr

end Sys2Proof
end

