-- ==== Sys2Proof/WellFormed.lean ====
section
/-! DEFINITION. What is well formed: instructions (all of them, since none has an operand), port accesses
(20_memory.md R69) and host-script lines (30_encoding.md R90, R91). -/

namespace Sys2Proof

/-- A command has no operand field and a micro-operation none either (30_encoding.md R80, R83, R84), so there is nothing in
an instruction that could be ill formed. -/
def Instr.wellFormed : Instr → Bool
  | .nop | .encodeImage | .encodeBlock | .releaseBuffer | .ackError => true
  | .gather | .alphaPack | .emitAlpha | .quantize | .emitColor | .advance => true

/-- "The register port takes only naturally aligned 32-bit accesses at offsets that are multiples of 4" (20_memory.md R69). -/
def Access.legal : Access → Bool
  | .read width offset => width == 32 && offset % 4 == 0
  | .write width offset _ => width == 32 && offset % 4 == 0

/-- A script line names a command after CMD and one or two states after WAIT (30_encoding.md R90). -/
def Line.wellFormed : Line → Bool
  | .cmd i => i.format == .cmd
  | .wait targets => targets.length == 1 || targets.length == 2
  | .w _ _ | .r _ | .w64 _ _ | .setup _ _ _ _ _ _ _ _ | .encode | .encodeBlk _ _ | .release => true

end Sys2Proof
end

