-- ==== Sys2Proof/Decode.lean ====
section
/-! DEFINITION. Decoding and encoding: command words (30_encoding.md R80 to R82), the STATUS word that selects a
micro-operation (R84, R85), the port map (10_state.md R20, 30_encoding.md R88), the opcode table's own numbering; and
after them the encoders, written from the same tables. -/

namespace Sys2Proof

/-- Why a word selects nothing. -/
inductive Reject where
  /-- A CMD word with bits [31:4] not 0 (30_encoding.md R82). -/
  | reservedBits
  /-- A CMD word with OPCODE 0x5 to 0xF (R82). -/
  | reservedOpcode
  /-- A STATUS word whose STATE is not BUSY selects no micro-operation (R84). -/
  | notBusy
  /-- PHASE 0, NONE (R84). -/
  | noPhase
  /-- PHASE 7, reserved (R85). -/
  | reservedPhase
  deriving DecidableEq, Repr

/-- The command a CMD word selects (30_encoding.md R80, R81, 40_host_commands.md R103). -/
def decodeCmd (w : Word) : Except Reject Instr :=
  if w.extractLsb' 4 28 ≠ 0 then .error .reservedBits
  else if w.extractLsb' 0 4 = 0x0 then .ok .nop
  else if w.extractLsb' 0 4 = 0x1 then .ok .encodeImage
  else if w.extractLsb' 0 4 = 0x2 then .ok .encodeBlock
  else if w.extractLsb' 0 4 = 0x3 then .ok .releaseBuffer
  else if w.extractLsb' 0 4 = 0x4 then .ok .ackError
  else .error .reservedOpcode

/-- The micro-operation a STATUS word selects: STATE [1:0] = BUSY and the value of PHASE [6:4] (30_encoding.md R84). The
other bits of the word play no part (mask 0x00000073). -/
def decodePhase (w : Word) : Except Reject Instr :=
  if w.extractLsb' 0 2 ≠ 1 then .error .notBusy
  else if w.extractLsb' 4 3 = 0 then .error .noPhase
  else if w.extractLsb' 4 3 = 1 then .ok .gather
  else if w.extractLsb' 4 3 = 2 then .ok .alphaPack
  else if w.extractLsb' 4 3 = 3 then .ok .emitAlpha
  else if w.extractLsb' 4 3 = 4 then .ok .quantize
  else if w.extractLsb' 4 3 = 5 then .ok .emitColor
  else if w.extractLsb' 4 3 = 6 then .ok .advance
  else .error .reservedPhase

/-- The decoder of one form. A word written to CMD is only ever read as a command word, and the STATUS word only as a
selection: 0x00000011 is GATHER as a STATUS word and an illegal command as a CMD word (95_test_vectors.md 2.7). -/
def decode : Format → Word → Except Reject Instr
  | .cmd, w => decodeCmd w
  | .phase, w => decodePhase w

/-- The opcode table puts both forms in one list of words. No word is in both (its five command words have PHASE 0), so one
word picks one row: the command it is, else the micro-operation it selects. Notes: log 18. -/
def decodeTable (w : Word) : Except Reject Instr :=
  match decodeCmd w with
  | .ok i => .ok i
  | .error _ => decodePhase w

/-- The instruction of an opcode-table word of `nbits` bits, the bits above being 0. An instruction is one 32-bit word
(30_encoding.md R80, R89). -/
def decodeTableWord (nbits w : Nat) : Option Instr :=
  if 2 ^ 32 ≤ w % 2 ^ nbits then none
  else
    match decodeTable (BitVec.ofNat 32 (w % 2 ^ nbits)) with
    | .ok i => some i
    | .error _ => none

/-- The register at a port offset (10_state.md R20, 30_encoding.md R88); none at the reserved offsets 0x1C and 0x4C and from
0x50 on (R87). -/
def regAt : Nat → Option Reg
  | 0x00 => some .cmd
  | 0x04 => some .status
  | 0x08 => some .width
  | 0x0C => some .height
  | 0x10 => some .config
  | 0x14 => some .blockX
  | 0x18 => some .blockY
  | 0x20 => some .srcBaseLo
  | 0x24 => some .srcBaseHi
  | 0x28 => some .srcLenLo
  | 0x2C => some .srcLenHi
  | 0x30 => some .outBaseLo
  | 0x34 => some .outBaseHi
  | 0x38 => some .outCapLo
  | 0x3C => some .outCapHi
  | 0x40 => some .outLenLo
  | 0x44 => some .outLenHi
  | 0x48 => some .blocksDone
  | _ => none

/-! ### The encoders -/

/-- The offset of a register (10_state.md R20). -/
def Reg.offset : Reg → Nat
  | .cmd => 0x00
  | .status => 0x04
  | .width => 0x08
  | .height => 0x0C
  | .config => 0x10
  | .blockX => 0x14
  | .blockY => 0x18
  | .srcBaseLo => 0x20
  | .srcBaseHi => 0x24
  | .srcLenLo => 0x28
  | .srcLenHi => 0x2C
  | .outBaseLo => 0x30
  | .outBaseHi => 0x34
  | .outCapLo => 0x38
  | .outCapHi => 0x3C
  | .outLenLo => 0x40
  | .outLenHi => 0x44
  | .blocksDone => 0x48

/-- The two bits of STATUS.STATE (10_state.md R22, R23). -/
def RunState.code : RunState → BitVec 2
  | .idle => 0
  | .busy => 1
  | .done => 2
  | .error => 3

/-- The three bits of STATUS.PHASE (30_encoding.md R84). -/
def Phase.code : Phase → BitVec 3
  | .none => 0
  | .gather => 1
  | .alphaPack => 2
  | .emitAlpha => 3
  | .quantize => 4
  | .emitColor => 5
  | .advance => 6

/-- The four bits of STATUS.ERR_CODE (60_exceptions.md R191). -/
def ErrCode.code : ErrCode → BitVec 4
  | .none => 0
  | .illegalCmd => 1
  | .badState => 2
  | .dimension => 3
  | .range => 4
  | .outputSize => 5
  | .overlap => 6

/-- The phase whose micro-operation an instruction is; NONE for a command (30_encoding.md R84). -/
def Instr.phase : Instr → Phase
  | .nop | .encodeImage | .encodeBlock | .releaseBuffer | .ackError => .none
  | .gather => .gather
  | .alphaPack => .alphaPack
  | .emitAlpha => .emitAlpha
  | .quantize => .quantize
  | .emitColor => .emitColor
  | .advance => .advance

/-- The word of an instruction: the command word (30_encoding.md R81), or `match = (PHASE << 4) | 1` over the STATUS word
(R84). -/
def encode : Instr → Word
  | .nop => 0x00000000
  | .encodeImage => 0x00000001
  | .encodeBlock => 0x00000002
  | .releaseBuffer => 0x00000003
  | .ackError => 0x00000004
  | .gather => 0x00000011
  | .alphaPack => 0x00000021
  | .emitAlpha => 0x00000031
  | .quantize => 0x00000041
  | .emitColor => 0x00000051
  | .advance => 0x00000061

/-- The bits an instruction's word fixes (30_encoding.md R81, R84). -/
def Format.mask : Format → Word
  | .cmd => 0xFFFFFFFF
  | .phase => 0x00000073

end Sys2Proof
end

