-- ==== Sys2Proof/Machine/State.lean ====
section
/-! DEFINITION. The state of ETC1TP (10_state.md R20 to R47), host memory, the pending turns of the agents, and the reasons
a step can stop. All of it is plain data. -/

namespace Sys2Proof.Machine

/-- Host memory (20_memory.md R60): the listed bytes, in rising address order, none equal to what an unlisted byte reads as.
`Memory.wf` in Ops.lean says so. -/
abbrev Memory := List Host.Cell

/-- The STATUS fields (10_state.md R22). -/
structure Status where
  state   : RunState
  ign     : Bool
  phase   : Phase
  errCode : ErrCode
  deriving DecidableEq, Repr

/-- The configuration registers, the block's only host-writable state (10_state.md R27 to R34, R43). Only their used bits
are held (30_encoding.md R86); a LO and HI pair is one 64-bit value. -/
structure Cfg where
  width   : BitVec 16
  height  : BitVec 16
  config  : BitVec 3
  blockX  : BitVec 32
  blockY  : BitVec 32
  srcBase : BitVec 64
  srcLen  : BitVec 64
  outBase : BitVec 64
  outCap  : BitVec 64
  deriving DecidableEq, Repr

/-- The sequencer cursor without its phase, which is STATUS.PHASE (10_state.md R36), and `wpos` (R39). -/
structure Cursor where
  mode : Mode
  tx   : BitVec 13
  ty   : BitVec 13
  q    : BitVec 2
  wpos : BitVec 4
  deriving DecidableEq, Repr

/-- The MODEL's own record of what the host and the block do to memory during a command, from which the draws of 20_memory.md
R75 and R76 and 70_reset_and_hazards.md R211 are made. Notes: log 8 to log 12. -/
structure Race where
  /-- Host memory when the running command was accepted. -/
  memBefore  : Memory
  /-- The host wrote the source region during this command (R76). -/
  srcTainted : Bool
  /-- The index of the first drawn pixel of this command, from that host write on (R76). -/
  srcDraws   : Nat
  /-- The output addresses the host wrote during this command (R76). -/
  hostOut    : List Nat
  /-- The bytes the command itself has written, whatever the host wrote over them (R75). -/
  blockOut   : Memory
  /-- The index of the next free value. -/
  draws      : Nat
  deriving DecidableEq, Repr

/-- How the platform answers the block's ports (20_memory.md R79, 70_reset_and_hazards.md R220). Notes: log 13, log 14. -/
structure Platform where
  srcFails  : Bool
  outFails  : Bool
  quantMute : Bool
  deriving DecidableEq, Repr

/-- What the host or the platform does in one turn. -/
inductive HostEvent where
  /-- An access to the register port (40_host_commands.md R100, R101). -/
  | port (a : Access)
  /-- WAIT: poll STATUS until STATE is one of `targets` (30_encoding.md R90, R92). `gaps` says how many turns the sequencer
  gets before each further poll, one when the list has run out. Notes: log 5. -/
  | wait (targets : List RunState) (gaps : List Nat)
  /-- The host writes one byte of its memory. -/
  | memWrite (addr : BitVec 64) (value : Byte)
  /-- The host reads one byte of its memory. -/
  | memRead (addr : BitVec 64)
  /-- The platform asserts reset (70_reset_and_hazards.md R210). -/
  | reset
  /-- The platform's ports answer, or stop answering, from here on. -/
  | platform (p : Platform)
  deriving DecidableEq, Repr

/-- One turn of the interleaving (40_host_commands.md R100: "Host accesses and sequencer steps interleave in any order"). -/
inductive Turn where
  | host (e : HostEvent)
  | sequencer
  deriving DecidableEq, Repr

/-- What a read of the host returned: a register's value at an offset, or a byte of memory. -/
inductive Seen where
  | reg (offset : Nat) (value : Word)
  | mem (addr : BitVec 64) (value : Byte)
  deriving DecidableEq, Repr

/-- The machine: the block's registers and internal state (10_state.md), host memory (20_memory.md R60), and the model's own
fields, which INVENTORY.md names one by one. -/
structure State where
  status     : Status
  cfg        : Cfg
  outLen     : BitVec 64
  blocksDone : BitVec 32
  cursor     : Cursor
  pix        : Vector Word 16
  acc        : Code
  ccode      : Code
  mem        : Memory
  race       : Race
  platform   : Platform
  agenda     : List Turn
  seen       : List Seen
  deriving DecidableEq, Repr

/-- Why the model stops. Every constructor is safe: the model stops where the spec gives no step. -/
inductive Fault where
  /-- GATHER, EMIT_ALPHA or EMIT_COLOR while the platform fails their accesses: "the model has no step for it (the block is
  stuck)" (20_memory.md R79). Safe. -/
  | busError
  /-- QUANTIZE while the quantizer never answers: "the model then has no step (stuck)" (70_reset_and_hazards.md R220). Safe. -/
  | quantizerSilent
  /-- GATHER, EMIT_ALPHA or EMIT_COLOR at an address outside the 2^64 bytes (20_memory.md R60). The start checks rule it out
  in every reachable state (00_scope.md R10, 40_host_commands.md R113). Safe. -/
  | addressOutOfSpace
  /-- BUSY with a PHASE that names no micro-operation: "A model that reaches PHASE = 7 has a bug; it may fault"
  (30_encoding.md R85), and PHASE = 0 only while not BUSY (10_state.md R25). Never reached from reset. Safe. -/
  | noMicroOp
  deriving DecidableEq, Repr

/-- Why the model refuses a turn. -/
inductive Refusal where
  /-- An instruction without a meaning yet: raised by exec's arm alone. Safe. No arm is left so. -/
  | notModelled (mnemonic : String)
  /-- A port access that is not an aligned 32-bit one: "the model gives it no step (it is refused)" (20_memory.md R69). Raised
  by the host's port access. Safe. -/
  | illegalPortAccess
  deriving DecidableEq, Repr

/-- The machine right after reset (10_state.md R46). The internal elements, which the spec leaves unspecified, are named in
log 2; memory lists no byte (log 1); no turn is pending (log 4). -/
def State.reset : State where
  status := { state := .idle, ign := false, phase := .none, errCode := .none }
  cfg :=
    { width := 0, height := 0, config := 0, blockX := 0, blockY := 0, srcBase := 0, srcLen := 0, outBase := 0, outCap := 0 }
  outLen := 0
  blocksDone := 0
  cursor := { mode := .image, tx := 0, ty := 0, q := 0, wpos := 0 }
  pix := Vector.replicate 16 0
  acc := 0
  ccode := 0
  mem := []
  race := { memBefore := [], srcTainted := false, srcDraws := 0, hostOut := [], blockOut := [], draws := 0 }
  platform := { srcFails := false, outFails := false, quantMute := false }
  agenda := []
  seen := []

end Sys2Proof.Machine
end

