-- ==== Sys2Proof/Machine/Flags.lean ====
section
/-! DEFINITION. STATUS (10_state.md R22 to R26): the assembled word and the named updates of its fields. The block has no
arithmetic flags (R44). -/

namespace Sys2Proof.Machine

/-- The STATUS word: STATE [1:0], IGN [2], PHASE [6:4], ERR_CODE [11:8]; bits 3, 7 and [31:12] read 0 (10_state.md R22). -/
def Status.word (t : Status) : Word :=
  0#20 ++ t.errCode.code ++ 0#1 ++ t.phase.code ++ 0#1 ++ BitVec.ofBool t.ign ++ t.state.code

/-- STATUS.IGN <- b (10_state.md R24). -/
def State.setIgn (b : Bool) (s : State) : State := { s with status := { s.status with ign := b } }

/-- STATUS.PHASE <- p: the analogue of a jump (00_scope.md R13). -/
def State.setPhase (p : Phase) (s : State) : State := { s with status := { s.status with phase := p } }

/-- STATUS.STATE <- r. -/
def State.setRun (r : RunState) (s : State) : State := { s with status := { s.status with state := r } }

/-- The block is BUSY: an encode is in progress (10_state.md R23). -/
def State.isBusy (s : State) : Bool := s.status.state == .busy

end Sys2Proof.Machine
end

