-- ==== Sys2Proof/Machine/Operands.lean ====
section
/-! DEFINITION. Operand assembly: the fields of the configuration registers as numbers (30_encoding.md R83), the quantities
derived from them (10_state.md R45), the two coordinate spaces (00_scope.md R14), the regions of host memory (20_memory.md
R60) and the byte-order helpers (00_scope.md R11). Arithmetic is on unbounded integers (R8). -/

namespace Sys2Proof.Machine

/-! ### Fields of the configuration registers -/

/-- `W = zext(WIDTH[15:0])` (40_host_commands.md R110). -/
def Cfg.w (c : Cfg) : Nat := c.width.toNat

/-- `H = zext(HEIGHT[15:0])` (40_host_commands.md R110). -/
def Cfg.h (c : Cfg) : Nat := c.height.toNat

/-- CONFIG.HAS_ALPHA, bit [0] (10_state.md R29). -/
def Cfg.hasAlpha (c : Cfg) : Bool := c.config.getLsbD 0

/-- CONFIG.QUALITY, bits [2:1] (10_state.md R29). -/
def Cfg.quality (c : Cfg) : BitVec 2 := c.config.extractLsb' 1 2

/-- `s32(v)`: `v - 2^32` if `v[31] = 1`, else `v` (00_scope.md R8, 10_state.md R30). -/
def s32 (v : Word) : Int := if v.getLsbD 31 then (v.toNat : Int) - 2 ^ 32 else v.toNat

/-- `ceil(a/b) = (a + b - 1) div b` (00_scope.md R8). -/
def ceilDiv (a b : Nat) : Nat := (a + b - 1) / b

/-- `B`, the output bytes of one sub-block: 16 with alpha, 8 without (00_scope.md R7). -/
def Cfg.blockBytes (c : Cfg) : Nat := if c.hasAlpha then 16 else 8

/-- `SRCBYTES = 4 * W * H` (40_host_commands.md R110). -/
def Cfg.srcBytes (c : Cfg) : Nat := 4 * c.w * c.h

/-- `TW`, tile columns (41_tiler.md R131). -/
def Cfg.tilesWide (c : Cfg) : Nat := ceilDiv c.w 8

/-- `TH`, tile rows (41_tiler.md R131). -/
def Cfg.tilesHigh (c : Cfg) : Nat := ceilDiv c.h 8

/-- The sub-blocks a command visits: `4 * TW * TH` for an image (41_tiler.md R131), one for a block (R139). -/
def Cfg.subBlocks (c : Cfg) : Mode → Nat
  | .image => 4 * c.tilesWide * c.tilesHigh
  | .block => 1

/-- `ReqLen`, the output bytes a command writes (40_host_commands.md R112). -/
def Cfg.reqLen (c : Cfg) : Mode → Nat
  | .image => 4 * c.tilesWide * c.tilesHigh * c.blockBytes
  | .block => c.blockBytes

/-! ### 64-bit registers as LO and HI words (10_state.md R20) -/

/-- `v[31:0]`. -/
def loHalf (v : BitVec 64) : Word := v.extractLsb' 0 32

/-- `v[63:32]`. -/
def hiHalf (v : BitVec 64) : Word := v.extractLsb' 32 32

/-- `v` with its LO word replaced. -/
def withLo (v : BitVec 64) (lo : Word) : BitVec 64 := hiHalf v ++ lo

/-- `v` with its HI word replaced. -/
def withHi (v : BitVec 64) (hi : Word) : BitVec 64 := hi ++ loHalf v

/-! ### Coordinates -/

/-- The block-space corner of sub-block `q` of tile `(tx, ty)` (41_tiler.md R134): column first, then row. -/
def tileOrigin (tx ty q : Nat) : Int × Int := (8 * tx + 4 * (q % 2), 8 * ty + 4 * (q / 2))

/-- The corner an ENCODE_BLOCK names (41_tiler.md R139). -/
def Cfg.blockCorner (c : Cfg) : Int × Int := (s32 c.blockX, s32 c.blockY)

/-- The corner `(bx, by)` of the current sub-block, a function of the cursor (10_state.md R36). -/
def State.origin (s : State) : Int × Int :=
  match s.cursor.mode with
  | .image => tileOrigin s.cursor.tx.toNat s.cursor.ty.toNat s.cursor.q.toNat
  | .block => s.cfg.blockCorner

/-- The corner of sub-block number `n` of a command: the inverse of `s = 4 * (ty * TW + tx) + q` (41_tiler.md R135). -/
def Cfg.originAt (c : Cfg) : Mode → Nat → Int × Int
  | .image, n => tileOrigin (n / 4 % c.tilesWide) (n / 4 / c.tilesWide) (n % 4)
  | .block, _ => c.blockCorner

/-- The image-space position of gather index `k = 4*y + x` of the sub-block at `o`: `posX = bx + x`,
`posY = H - 1 - (by + y)` (42_block_encoder.md R150, R153). -/
def Cfg.posOf (c : Cfg) (o : Int × Int) (k : Nat) : Int × Int :=
  (o.1 + (k % 4 : Nat), (c.h : Int) - 1 - (o.2 + (k / 4 : Nat)))

/-- The bounds test `0 <= posX < W` and `0 <= posY < H` (42_block_encoder.md R151). -/
def Cfg.inImage (c : Cfg) (p : Int × Int) : Bool :=
  decide (0 ≤ p.1) && decide (p.1 < c.w) && decide (0 ≤ p.2) && decide (p.2 < c.h)

/-- The address of an in-bounds pixel, `SRC_BASE + 4 * (posY * W + posX)` (20_memory.md R64). -/
def Cfg.pixelAddr (c : Cfg) (p : Int × Int) : Nat := c.srcBase.toNat + 4 * (p.2 * c.w + p.1).toNat

/-! ### Regions of host memory (20_memory.md R60) -/

/-- `[SRC_BASE, SRC_BASE + 4*WIDTH*HEIGHT)`. -/
def Cfg.inSource (c : Cfg) (a : Nat) : Bool := decide (c.srcBase.toNat ≤ a) && decide (a < c.srcBase.toNat + c.srcBytes)

/-- `[OUT_BASE, OUT_BASE + OUT_LEN)`. -/
def State.inOutput (s : State) (a : Nat) : Bool :=
  decide (s.cfg.outBase.toNat ≤ a) && decide (a < s.cfg.outBase.toNat + s.outLen.toNat)

/-! ### Byte order (00_scope.md R11) -/

/-- Byte `i` of a code, `v[8i+7 : 8i]`. -/
def byteOf (v : Code) (i : Nat) : Byte := v.extractLsb' (8 * i) 8

/-- `bytesLE64`: least significant byte first, the order of the alpha code (43_alpha_packer.md R175). -/
def bytesLE64 (v : Code) : List Byte :=
  [byteOf v 0, byteOf v 1, byteOf v 2, byteOf v 3, byteOf v 4, byteOf v 5, byteOf v 6, byteOf v 7]

/-- `bytesBE64`: most significant byte first, the one conversion to wire order (42_block_encoder.md R157, R160). -/
def bytesBE64 (v : Code) : List Byte :=
  [byteOf v 7, byteOf v 6, byteOf v 5, byteOf v 4, byteOf v 3, byteOf v 2, byteOf v 1, byteOf v 0]

/-- `bswap64(v)`: the code whose `bytesLE64` is `bytesBE64 v`. -/
def bswap64 (v : Code) : Code :=
  byteOf v 0 ++ byteOf v 1 ++ byteOf v 2 ++ byteOf v 3 ++ byteOf v 4 ++ byteOf v 5 ++ byteOf v 6 ++ byteOf v 7

end Sys2Proof.Machine
end

