-- ==== Sys2Proof/Machine/Ops.lean ====
section
/-! DEFINITION. The named operations: host memory (00_scope.md R10), the block's writes (20_memory.md R66), the registers of
the port (40_host_commands.md R100, R101), the error entry and return (60_exceptions.md R193, R195), and the command start
(40_host_commands.md R110 to R116). -/

namespace Sys2Proof.Machine

/-! ### Host memory -/

/-- What a byte that is not listed reads as. DESIGN CHOICE, unsafe (log 1): the spec does not say what host memory holds
before the host writes it. -/
def Memory.unlisted : Byte := 0

/-- The canonical form: addresses strictly rising and below 2^64, and no entry equal to what an unlisted address reads as. -/
abbrev Memory.wf (m : Memory) : Prop :=
  m.Pairwise (fun c d => c.1 < d.1) ∧ ∀ c ∈ m, c.2 ≠ Memory.unlisted ∧ c.1 < 2 ^ 64

/-- One byte. -/
def Memory.read : Memory → Nat → Byte
  | [], _ => Memory.unlisted
  | (k, v) :: m, a => if k = a then v else Memory.read m a

/-- One byte written, the canonical form kept: writing the unlisted value removes the entry. -/
def Memory.write : Memory → Nat → Byte → Memory
  | [], a, b => if b = Memory.unlisted then [] else [(a, b)]
  | (k, v) :: m, a, b =>
    if k < a then (k, v) :: Memory.write m a b
    else if k = a then (if b = Memory.unlisted then m else (a, b) :: m)
    else if b = Memory.unlisted then (k, v) :: m
    else (a, b) :: (k, v) :: m

/-- `MemRead(addr, n)`: the bytes at `addr`, `addr + 1`, ... (00_scope.md R10). -/
def Memory.readBytes (m : Memory) (a n : Nat) : List Byte := (List.range n).map fun i => m.read (a + i)

/-- `MemWrite(addr, n, bytes)`: byte `bi` to `addr + i` (00_scope.md R10). -/
def Memory.writeBytes : Memory → Nat → List Byte → Memory
  | m, _, [] => m
  | m, a, b :: bs => Memory.writeBytes (m.write a b) (a + 1) bs

/-- The 4-byte read of a source pixel, as the word `{b3, b2, b1, b0}` (20_memory.md R63, R65). -/
def Memory.readPixel (m : Memory) (a : Nat) : Word :=
  match m.readBytes a 4 with
  | [b0, b1, b2, b3] => b3 ++ b2 ++ b1 ++ b0
  | _ => 0

/-! ### The block's writes -/

/-- The bytes a write of the block leaves. A byte the host also wrote during this command is either writer's (20_memory.md
R76, 93_implementation_defined.md U14): a draw, index `n` for the first byte. Where the host kept away, the bytes are the
block's. Notes: log 10. -/
def State.settled (s : State) : Nat → Nat → List Byte → List Byte
  | _, _, [] => []
  | n, a, b :: bs =>
    (if s.race.hostOut.contains a && Config.drawBit n then s.mem.read a else b) :: s.settled (n + 1) (a + 1) bs

/-- The 8-byte write of one code at `a` (20_memory.md R66): the memory it leaves, the record of what the
command wrote, and the draws it used. -/
def State.writeCode (s : State) (a : Nat) (bytes : List Byte) : State :=
  { s with
    mem := s.mem.writeBytes a (s.settled s.race.draws a bytes)
    race :=
      { s.race with
        blockOut := s.race.blockOut.writeBytes a bytes
        draws := s.race.draws + (if s.race.hostOut.isEmpty then 0 else bytes.length) } }

/-- EMIT_ALPHA and EMIT_COLOR up to their STATUS update: the write of a code at `a`, or the stop the spec gives when the
access cannot be made (20_memory.md R79; outside the 2^64 bytes there is no address, R60). -/
def State.emit (s : State) (a : Nat) (bytes : List Byte) : Except Fault State :=
  if 2 ^ 64 < a + bytes.length then .error .addressOutOfSpace
  else if s.platform.outFails then .error .busError
  else .ok (s.writeCode a bytes)

/-- The outcome of a meaning that may stop. -/
def outcome : Except Fault State → Host.Outcome State Fault Refusal
  | .ok s => .next s
  | .error f => .fault f

/-! ### The registers of the port -/

/-- A register's current value with every reserved bit 0 (40_host_commands.md R101); CMD reads 0 (10_state.md R21). -/
def State.readReg (s : State) : Reg → Word
  | .cmd => 0
  | .status => s.status.word
  | .width => s.cfg.width.setWidth 32
  | .height => s.cfg.height.setWidth 32
  | .config => s.cfg.config.setWidth 32
  | .blockX => s.cfg.blockX
  | .blockY => s.cfg.blockY
  | .srcBaseLo => loHalf s.cfg.srcBase
  | .srcBaseHi => hiHalf s.cfg.srcBase
  | .srcLenLo => loHalf s.cfg.srcLen
  | .srcLenHi => hiHalf s.cfg.srcLen
  | .outBaseLo => loHalf s.cfg.outBase
  | .outBaseHi => hiHalf s.cfg.outBase
  | .outCapLo => loHalf s.cfg.outCap
  | .outCapHi => hiHalf s.cfg.outCap
  | .outLenLo => loHalf s.outLen
  | .outLenHi => hiHalf s.outLen
  | .blocksDone => s.blocksDone

/-- A read at a port offset; a reserved or unmapped offset reads 0 (30_encoding.md R87, 40_host_commands.md R101). -/
def State.readPort (s : State) (offset : Nat) : Word :=
  match regAt offset with
  | some r => s.readReg r
  | none => 0

/-- `reg(off) <- v & usedMask(off)` for a read-write register (40_host_commands.md R100, 30_encoding.md R86): WIDTH and HEIGHT
keep `v[15:0]`, CONFIG keeps `v[2:0]`, every other register all 32 bits. The other registers take no write. -/
def Cfg.writeReg (c : Cfg) (v : Word) : Reg → Cfg
  | .width => { c with width := v.extractLsb' 0 16 }
  | .height => { c with height := v.extractLsb' 0 16 }
  | .config => { c with config := v.extractLsb' 0 3 }
  | .blockX => { c with blockX := v }
  | .blockY => { c with blockY := v }
  | .srcBaseLo => { c with srcBase := withLo c.srcBase v }
  | .srcBaseHi => { c with srcBase := withHi c.srcBase v }
  | .srcLenLo => { c with srcLen := withLo c.srcLen v }
  | .srcLenHi => { c with srcLen := withHi c.srcLen v }
  | .outBaseLo => { c with outBase := withLo c.outBase v }
  | .outBaseHi => { c with outBase := withHi c.outBase v }
  | .outCapLo => { c with outCap := withLo c.outCap v }
  | .outCapHi => { c with outCap := withHi c.outCap v }
  | .cmd | .status | .outLenLo | .outLenHi | .blocksDone => c

/-- The bits of a written word a register keeps (40_host_commands.md R100). -/
def Reg.usedMask : Reg → Word
  | .width | .height => 0x0000FFFF
  | .config => 0x00000007
  | .blockX | .blockY | .srcBaseLo | .srcBaseHi | .srcLenLo | .srcLenHi
  | .outBaseLo | .outBaseHi | .outCapLo | .outCapHi => 0xFFFFFFFF
  | .cmd | .status | .outLenLo | .outLenHi | .blocksDone => 0

/-! ### Errors -/

/-- Error entry, `raise Error(code)` (60_exceptions.md R193, 00_scope.md R12): STATE and ERR_CODE, and nothing else. There is
no vector and no saved state. -/
def State.raiseError (c : ErrCode) (s : State) : State :=
  { s with status := { s.status with state := .error, errCode := c } }

/-- Error return, what ACK_ERROR does in ERROR (60_exceptions.md R195, 40_host_commands.md R108). -/
def State.errorReturn (s : State) : State :=
  { s with status := { s.status with state := .idle, errCode := .none, ign := false } }

/-! ### Command acceptance -/

/-- The frame of the command dispatch (40_host_commands.md R103): ignored with IGN set while BUSY (R118), `inError` while ERROR
(R117), and in IDLE and DONE the effect of the word with IGN cleared first. -/
def State.dispatch (inError accepted : State → State) (s : State) : State :=
  match s.status.state with
  | .busy => s.setIgn true
  | .error => inError s
  | .idle => accepted (s.setIgn false)
  | .done => accepted (s.setIgn false)

/-- `Init(m)` (40_host_commands.md R116). The model's own record of the race is started with it (log 8, log 9, log 10). -/
def State.init (m : Mode) (s : State) : State :=
  { s with
    status := { s.status with state := .busy, phase := .gather }
    blocksDone := 0
    cursor := { mode := m, tx := 0, ty := 0, q := 0, wpos := 0 }
    race := { s.race with memBefore := s.mem, srcTainted := false, hostOut := [], blockOut := [] } }

/-- The DimensionCheck fails (40_host_commands.md R111). -/
def Cfg.badDimension (c : Cfg) : Bool := c.w == 0 || c.h == 0 || decide (c.srcLen.toNat < c.srcBytes)

/-- The RangeCheck fails (R113): a region passes 2^64. -/
def Cfg.badRange (c : Cfg) (req : Nat) : Bool :=
  decide (2 ^ 64 < c.srcBase.toNat + c.srcBytes) || decide (2 ^ 64 < c.outBase.toNat + req)

/-- The SizeCheck fails (R114). -/
def Cfg.badSize (c : Cfg) (req : Nat) : Bool := decide (c.outCap.toNat < req)

/-- The OverlapCheck fails (R115): the two half-open regions meet. -/
def Cfg.badOverlap (c : Cfg) (req : Nat) : Bool :=
  decide (c.srcBase.toNat < c.outBase.toNat + req) && decide (c.outBase.toNat < c.srcBase.toNat + c.srcBytes)

/-- The first failing start check after DIMENSION, in the order RANGE, OUTPUT_SIZE, OVERLAP (40_host_commands.md R110,
60_exceptions.md R192). -/
def Cfg.regionError (c : Cfg) (req : Nat) : ErrCode :=
  if c.badRange req then .range
  else if c.badSize req then .outputSize
  else if c.badOverlap req then .overlap
  else .none

/-- `Start(m)` (40_host_commands.md R110): the DIMENSION check, then OUT_LEN <- REQ (R112), then the three region checks, then
`Init(m)`. No check reads host memory. -/
def State.start (m : Mode) (s : State) : State :=
  if s.cfg.badDimension then s.raiseError .dimension
  else
    let t := { s with outLen := BitVec.ofNat 64 (s.cfg.reqLen m) }
    match s.cfg.regionError (s.cfg.reqLen m) with
    | .none => t.init m
    | e => t.raiseError e

/-- ENCODE_IMAGE and ENCODE_BLOCK once accepted: BAD_STATE from DONE, else the start (40_host_commands.md R106, R109). -/
def State.encodeCommand (m : Mode) (s : State) : State :=
  if s.status.state = .done then s.raiseError .badState else s.start m

end Sys2Proof.Machine
end

