-- ==== Sys2Proof/Machine/AlphaPacker.lean ====
section
/-! DEFINITION. The alpha packer (43_alpha_packer.md): ALPHA_PACK (R170 to R174) and EMIT_ALPHA (R175). -/

namespace Sys2Proof.Machine

/-- `k(n) = 4*(n & 3) + (n >> 2)`: the gather entry whose alpha nibble `n` holds, the transpose of the 4×4 grid
(43_alpha_packer.md R171). -/
def alphaIndex (n : Fin 16) : Fin 16 := ⟨4 * (n.val % 4) + n.val / 4, by omega⟩

/-- The 4-bit alpha of a gather entry, `pix[k][31:24] >> 4` (43_alpha_packer.md R172). -/
def alphaNibble (p : Word) : Byte := p.extractLsb' 24 8 >>> 4

/-- The alpha code of sixteen gathered pixels: nibble `n` at bits `[4n+3 : 4n]` (43_alpha_packer.md R173, R174). -/
def alphaCode (pix : Vector Word 16) : Code :=
  (List.finRange 16).foldl
    (fun a64 n => a64 ||| ((alphaNibble (pix[alphaIndex n])).setWidth 64 <<< (4 * n.val))) 0

/-- ALPHA_PACK (PHASE 2, 43_alpha_packer.md R174). -/
def execAlphaPack (s : State) : Host.Outcome State Fault Refusal :=
  .next { s with acc := alphaCode s.pix, status := { s.status with phase := .emitAlpha } }

/-- Where EMIT_ALPHA writes: `OUT_BASE + BLOCKS_DONE * 16`, the start of the 16-byte allotment (43_alpha_packer.md R175). -/
def State.alphaAddr (s : State) : Nat := s.cfg.outBase.toNat + s.blocksDone.toNat * 16

/-- EMIT_ALPHA (PHASE 3, 43_alpha_packer.md R175): `bytesLE64(acc)`, then wpos <- 8 and QUANTIZE. -/
def execEmitAlpha (s : State) : Host.Outcome State Fault Refusal :=
  outcome ((s.emit s.alphaAddr (bytesLE64 s.acc)).map fun t =>
    { t with cursor := { t.cursor with wpos := 8 }, status := { t.status with phase := .quantize } })

end Sys2Proof.Machine
end

