-- ==== Sys2Proof/Machine/BlockEncoder.lean ====
section
/-! DEFINITION. The block encoder (42_block_encoder.md): GATHER (R150 to R154), QUANTIZE (R155, R156) and EMIT_COLOR (R157).
Step runs a micro-operation only when the STATUS word selects it (30_encoding.md R84); its meaning is its effect. -/

namespace Sys2Proof.Machine

/-! ### GATHER -/

/-- `Fetch(posX, posY)` (42_block_encoder.md R152): the pixel in bounds, 0 out of bounds with no memory access. -/
def fetch (c : Cfg) (m : Memory) (p : Int × Int) : Word :=
  if c.inImage p then m.readPixel (c.pixelAddr p) else 0

/-- The sixteen pixels of the sub-block at `o`, in gather order `k = 4*y + x` (42_block_encoder.md R153). -/
def gatherAt (c : Cfg) (m : Memory) (o : Int × Int) : Vector Word 16 :=
  Vector.ofFn fun k => fetch c m (c.posOf o k.val)

/-- The addresses GATHER reads, in increasing `k`: one 4-byte read per in-bounds pixel (20_memory.md R65, R73). -/
def gatherReads (c : Cfg) (o : Int × Int) : List Nat :=
  ((List.range 16).filter fun k => c.inImage (c.posOf o k)).map fun k => c.pixelAddr (c.posOf o k)

/-- What GATHER gets at one sub-block once the host has written the source region during the command: "each later pixel read of the block
returns an unspecified 4 bytes (a draw)" (20_memory.md R76), the free values from index `draws` on. An out-of-bounds position
is still 0. Notes: log 9. -/
def gatherDrawn (c : Cfg) (draws : Nat) (o : Int × Int) : Vector Word 16 :=
  Vector.ofFn fun k => if c.inImage (c.posOf o k.val) then Config.drawPixel (draws + k.val) else 0

/-- The pixels a GATHER of sub-block number `n`, with corner `o`, takes. -/
def State.pixelsAt (s : State) (n : Nat) (o : Int × Int) : Vector Word 16 :=
  if s.race.srcTainted then gatherDrawn s.cfg (s.race.srcDraws + 16 * n) o else gatherAt s.cfg s.mem o

/-- The pixels GATHER takes at the current sub-block. -/
def State.gathered (s : State) : Vector Word 16 := s.pixelsAt s.blocksDone.toNat s.origin

/-- The micro-operation after GATHER (42_block_encoder.md R154). -/
def Cfg.afterGather (c : Cfg) : Phase := if c.hasAlpha then .alphaPack else .quantize

/-- GATHER (PHASE 1, 42_block_encoder.md R153). A read the platform fails, or one outside the 2^64 bytes, has no step
(20_memory.md R79, R60). -/
def execGather (s : State) : Host.Outcome State Fault Refusal :=
  if (gatherReads s.cfg s.origin).any fun a => decide (2 ^ 64 < a + 4) then .fault .addressOutOfSpace
  else if s.platform.srcFails && !(gatherReads s.cfg s.origin).isEmpty then .fault .busError
  else
    .next
      { s with
        pix := s.gathered
        status := { s.status with phase := s.cfg.afterGather } }

/-! ### QUANTIZE -/

/-- The RGB part of a gather entry: R [7:0], G [15:8], B [23:16]; the alpha byte is not sent (42_block_encoder.md R155). -/
def rgbOf (p : Word) : Rgb := { r := p.extractLsb' 0 8, g := p.extractLsb' 8 8, b := p.extractLsb' 16 8 }

/-- The sixteen triples of one request, in gather order (42_block_encoder.md R155). -/
def rgbs (pix : Vector Word 16) : Vector Rgb 16 := Vector.ofFn fun k => rgbOf pix[k]

/-- QUANTIZE with a quantizer `quantizer` (42_block_encoder.md R156): one request, its answer into ccode. -/
def State.quantizeWith (quantizer : Vector Rgb 16 → BitVec 2 → Code) (s : State) : State :=
  { s with
    ccode := quantizer (rgbs s.pix) s.cfg.quality
    status := { s.status with phase := .emitColor } }

/-- QUANTIZE (PHASE 4, 42_block_encoder.md R156), with the platform's quantizer `Q`. One that never answers leaves no step
(70_reset_and_hazards.md R220). -/
def execQuantize (s : State) : Host.Outcome State Fault Refusal :=
  if s.platform.quantMute then .fault .quantizerSilent else .next (s.quantizeWith Config.Q)

/-! ### EMIT_COLOR -/

/-- The output cursor, `OUT_BASE + BLOCKS_DONE * B + wpos` (10_state.md R37). -/
def State.colorAddr (s : State) : Nat :=
  s.cfg.outBase.toNat + s.blocksDone.toNat * s.cfg.blockBytes + s.cursor.wpos.toNat

/-- EMIT_COLOR (PHASE 5, 42_block_encoder.md R157): `bytesBE64(ccode)` at the output cursor, then ADVANCE. -/
def execEmitColor (s : State) : Host.Outcome State Fault Refusal :=
  outcome ((s.emit s.colorAddr (bytesBE64 s.ccode)).map (State.setPhase .advance))

end Sys2Proof.Machine
end

