-- ==== Sys2Proof/Machine/Output.lean ====
section
/-! DEFINITION. The bytes a command writes, as a function of the registers and the source image alone (41_tiler.md R135,
R136, R142, 42_block_encoder.md R158), and how many of them are already in memory. The races of 20_memory.md R75 and
70_reset_and_hazards.md R211 are stated with them. -/

namespace Sys2Proof.Machine

/-- The B bytes of one sub-block with these codes: the alpha code first when alpha is on, then the colour code (41_tiler.md
R136, 42_block_encoder.md R158). -/
def Cfg.codeBytes (c : Cfg) (alpha color : Code) : List Byte :=
  (if c.hasAlpha then bytesLE64 alpha else []) ++ bytesBE64 color

/-- The B bytes of the sub-block with these pixels. -/
def subBlockBytes (quantizer : Vector Rgb 16 → BitVec 2 → Code) (c : Cfg) (pix : Vector Word 16) : List Byte :=
  c.codeBytes (alphaCode pix) (quantizer (rgbs pix) c.quality)

/-- The byte a running command with an unchanged source writes at `OUT_BASE + j`: byte `j mod B` of sub-block `j div B` (41_tiler.md R136). -/
def State.outputByte (s : State) (j : Nat) : Byte :=
  (subBlockBytes Config.Q s.cfg
    (gatherAt s.cfg s.mem (s.cfg.originAt s.cursor.mode (j / s.cfg.blockBytes)))).getD (j % s.cfg.blockBytes) 0

/-- How many output bytes the running command has written: those of the finished sub-blocks, and those of the current one
(10_state.md R37, R38, R39). -/
def State.emitted (s : State) : Nat :=
  s.blocksDone.toNat * s.cfg.blockBytes + (if s.status.phase = .advance then s.cfg.blockBytes else s.cursor.wpos.toNat)

/-! ### The value the running command writes at an output byte (20_memory.md R75), whatever the host did -/

/-- Sub-block `n` is the current one: while BUSY its index is BLOCKS_DONE (41_tiler.md R135). -/
def State.atSubBlock (s : State) (n : Nat) : Bool := n == s.blocksDone.toNat

/-- The pixels of sub-block `n`: those gathered, once GATHER has taken them, else those its GATHER takes. -/
def State.pixelsOf (s : State) (n : Nat) : Vector Word 16 :=
  if s.atSubBlock n && s.status.phase != .gather then s.pix else s.pixelsAt n (s.cfg.originAt s.cursor.mode n)

/-- The alpha code of sub-block `n`: acc, once ALPHA_PACK has made it. -/
def State.alphaOf (s : State) (n : Nat) : Code :=
  if s.atSubBlock n && s.status.phase == .emitAlpha then s.acc else alphaCode (s.pixelsOf n)

/-- The colour code of sub-block `n`: ccode, once QUANTIZE has asked for it. -/
def State.colorOf (s : State) (n : Nat) : Code :=
  if s.atSubBlock n && s.status.phase == .emitColor then s.ccode else Config.Q (rgbs (s.pixelsOf n)) s.cfg.quality

/-- "The value the command writes there" (20_memory.md R75), at `OUT_BASE + j`: the recorded byte where a micro-operation has
written it, else the byte the remaining micro-operations write. Notes: log 8. -/
def State.commandByte (s : State) (j : Nat) : Byte :=
  if j < s.emitted then s.race.blockOut.read (s.cfg.outBase.toNat + j)
  else
    (s.cfg.codeBytes (s.alphaOf (j / s.cfg.blockBytes)) (s.colorOf (j / s.cfg.blockBytes))).getD (j % s.cfg.blockBytes) 0

end Sys2Proof.Machine
end

