-- ==== Sys2Proof/Machine/HostMemory.lean ====
section
/-! DEFINITION. The host's own accesses to its memory and the reset event: what they do while a command runs is a race, and
its outcome a draw (20_memory.md R75, R76, 70_reset_and_hazards.md R210 to R212, R216 to R218). -/

namespace Sys2Proof.Machine

/-- What a host read of output byte `a` returns while BUSY: "either the byte's value before the command or the value the
command writes there; which one is not specified" (20_memory.md R75), whatever the host wrote. Notes: log 8. -/
def State.raceByte (s : State) (a : Nat) : Byte :=
  if Config.drawBit s.race.draws then s.race.memBefore.read a else s.commandByte (a - s.cfg.outBase.toNat)

/-- A host read of one byte of memory (20_memory.md R74, R75). -/
def State.hostRead (a : BitVec 64) (s : State) : State :=
  if s.isBusy && s.inOutput a.toNat then
    { s with
      seen := .mem a (s.raceByte a.toNat) :: s.seen
      race := { s.race with draws := s.race.draws + 1 } }
  else { s with seen := .mem a (s.mem.read a.toNat) :: s.seen }

/-- The record once the host has written the source region: the first such write of a command sets aside a free value for
every pixel the command may still read (20_memory.md R76). Notes: log 9. -/
def State.taint (s : State) : Race :=
  if s.race.srcTainted then s.race
  else
    { s.race with
      srcTainted := true
      srcDraws := s.race.draws
      draws := s.race.draws + 16 * s.cfg.subBlocks s.cursor.mode }

/-- A host write of one byte of memory. While BUSY a write to the source region makes every later pixel read of the command
a draw, and a write to the output region makes that byte either writer's (20_memory.md R76,
93_implementation_defined.md U13, U14). Elsewhere, and when not BUSY, it is an ordinary write. Notes: log 9, log 10. -/
def State.hostWrite (a : BitVec 64) (v : Byte) (s : State) : State :=
  if s.isBusy && s.cfg.inSource a.toNat then
    { s with mem := s.mem.write a.toNat v, race := s.taint }
  else if s.isBusy && s.inOutput a.toNat then
    { s with
      mem :=
        s.mem.write a.toNat
          (if decide (a.toNat - s.cfg.outBase.toNat < s.emitted) && Config.drawBit s.race.draws then s.mem.read a.toNat else v)
      race := { s.race with hostOut := a.toNat :: s.race.hostOut, draws := s.race.draws + 1 } }
  else { s with mem := s.mem.write a.toNat v }

/-- What reset leaves in output byte `OUT_BASE + j` of a command it aborts, when no micro-operation had written that byte:
its old value or the one the command would have written, each byte independently (70_reset_and_hazards.md R211). Notes:
log 11. -/
def State.abortedByte (s : State) (j : Nat) : Byte :=
  if Config.drawBit (s.race.draws + j) then s.mem.read (s.cfg.outBase.toNat + j)
  else s.commandByte j

/-- Memory after a reset that aborts a command: "The output writes already made stay in memory", and the bytes not yet
written are drawn (70_reset_and_hazards.md R211). -/
def State.abortedMem (s : State) : Memory :=
  (List.range' s.emitted (s.outLen.toNat - s.emitted)).foldl
    (fun m j =>
      if s.cfg.outBase.toNat + j < 2 ^ 64 then m.write (s.cfg.outBase.toNat + j) (s.abortedByte j) else m) s.mem

/-- The reset event (70_reset_and_hazards.md R210): every piece of the block's state at its reset value (10_state.md R46).
Memory keeps every byte (R212), but for the draws of a command it aborts (R211). What the host and the platform hold is not
the block's and stays. Notes: log 2, log 11, log 22. -/
def State.resetEvent (s : State) : State :=
  { State.reset with
    mem := if s.isBusy then s.abortedMem else s.mem
    race := { State.reset.race with draws := s.race.draws + (if s.isBusy then s.outLen.toNat else 0) }
    platform := s.platform
    agenda := s.agenda
    seen := s.seen }

end Sys2Proof.Machine
end

