-- ==== Sys2Proof/Machine/Commands.lean ====
section
/-! DEFINITION. The five host commands (40_host_commands.md R105 to R109), each over the dispatch frame of R103, R117 and
R118, and the illegal command word (30_encoding.md R82). Every one answers a next state in every state. -/

namespace Sys2Proof.Machine

/-- NOP (40_host_commands.md R105): IGN cleared in IDLE and DONE, no change at all in ERROR, IGN set in BUSY. -/
def execNop (s : State) : Host.Outcome State Fault Refusal := .next (s.dispatch id id)

/-- ENCODE_IMAGE (40_host_commands.md R106). -/
def execEncodeImage (s : State) : Host.Outcome State Fault Refusal :=
  .next (s.dispatch (State.setIgn true) (State.encodeCommand .image))

/-- ENCODE_BLOCK (40_host_commands.md R109). -/
def execEncodeBlock (s : State) : Host.Outcome State Fault Refusal :=
  .next (s.dispatch (State.setIgn true) (State.encodeCommand .block))

/-- RELEASE_BUFFER (40_host_commands.md R107): DONE to IDLE; BAD_STATE from IDLE, where a double release lands
(60_exceptions.md R206). -/
def execReleaseBuffer (s : State) : Host.Outcome State Fault Refusal :=
  .next (s.dispatch (State.setIgn true) fun t =>
    if t.status.state = .done then t.setRun .idle else t.raiseError .badState)

/-- ACK_ERROR (40_host_commands.md R108): the error return from ERROR; BAD_STATE from IDLE and DONE. -/
def execAckError (s : State) : Host.Outcome State Fault Refusal :=
  .next (s.dispatch State.errorReturn (State.raiseError .badState))

/-- A CMD word that selects no command (30_encoding.md R82): ILLEGAL_CMD in IDLE and DONE (40_host_commands.md R103), ignored
with IGN set in BUSY and ERROR (R117, R118). -/
def State.illegalCommand (s : State) : State := s.dispatch (State.setIgn true) (State.raiseError .illegalCmd)

end Sys2Proof.Machine
end

