-- ==== Sys2Proof/Machine/Tiler.lean ====
section
/-! DEFINITION. The tiler (41_tiler.md): the cursor's order (R132, R133) and ADVANCE (R137). -/

namespace Sys2Proof.Machine

/-- The cursor of the next sub-block: `q`, then `tx`, then `ty`, with wpos back to 0 (41_tiler.md R132, R133, R137). The widths
are those of 10_state.md R36 (log 26). -/
def Cursor.following (c : Cursor) (tilesWide : Nat) : Cursor :=
  if c.q.toNat < 3 then { c with q := c.q + 1, wpos := 0 }
  else if (c.tx.toNat : Int) < (tilesWide : Int) - 1 then { c with q := 0, tx := c.tx + 1, wpos := 0 }
  else { c with q := 0, tx := 0, ty := c.ty + 1, wpos := 0 }

/-- The sub-block just finished was the command's last: `mode == BLOCK or BLOCKS_DONE == 4 * TW * TH`, with BLOCKS_DONE
already counted (41_tiler.md R137). -/
def State.lastBlock (s : State) : Bool :=
  s.cursor.mode == .block || (s.blocksDone + 1).toNat == 4 * s.cfg.tilesWide * s.cfg.tilesHigh

/-- ADVANCE (PHASE 6, 41_tiler.md R137): count the sub-block, then end in DONE or move the cursor and go on. -/
def execAdvance (s : State) : Host.Outcome State Fault Refusal :=
  .next
    (if s.lastBlock then
      { s with
        blocksDone := s.blocksDone + 1
        status := { s.status with state := .done, phase := .none } }
    else
      { s with
        blocksDone := s.blocksDone + 1
        cursor := s.cursor.following s.cfg.tilesWide
        status := { s.status with phase := .gather } })

end Sys2Proof.Machine
end

