-- ==== Sys2Proof/Machine/Dispatch.lean ====
section
/-! DEFINITION. The dispatch of the eleven instructions to their meanings. -/

namespace Sys2Proof.Machine

def exec (i : Instr) (s : State) : Host.Outcome State Fault Refusal :=
  match i with
  | .nop => Sys2Proof.Machine.execNop s
  | .encodeImage => Sys2Proof.Machine.execEncodeImage s
  | .encodeBlock => Sys2Proof.Machine.execEncodeBlock s
  | .releaseBuffer => Sys2Proof.Machine.execReleaseBuffer s
  | .ackError => Sys2Proof.Machine.execAckError s
  | .gather => Sys2Proof.Machine.execGather s
  | .alphaPack => Sys2Proof.Machine.execAlphaPack s
  | .emitAlpha => Sys2Proof.Machine.execEmitAlpha s
  | .quantize => Sys2Proof.Machine.execQuantize s
  | .emitColor => Sys2Proof.Machine.execEmitColor s
  | .advance => Sys2Proof.Machine.execAdvance s

end Sys2Proof.Machine
end

