-- ==== Sys2Proof/Machine/Port.lean ====
section
/-! DEFINITION. The register port: the decode of an access (30_encoding.md R88), writes (40_host_commands.md R100, R102, R103,
R104) and reads (R101). -/

namespace Sys2Proof.Machine

/-- A host write to CMD (40_host_commands.md R103): the command its word selects, or the illegal command word. -/
def cmdWrite (v : Word) (s : State) : Host.Outcome State Fault Refusal :=
  match decodeCmd v with
  | .ok i => exec i s
  | .error _ => .next s.illegalCommand

/-- A write to a read-write register: ignored with IGN set while BUSY (40_host_commands.md R104), else the register takes its
used bits (R100). -/
def State.configWrite (r : Reg) (v : Word) (s : State) : State :=
  if s.isBusy then s.setIgn true else { s with cfg := s.cfg.writeReg v r }

/-- A legal host write of `v` at `offset` (40_host_commands.md R100). A write to a read-only register (R102) and one to a
reserved or unmapped offset (30_encoding.md R87) change nothing. -/
def portWrite (offset : Nat) (v : Word) (s : State) : Host.Outcome State Fault Refusal :=
  match regAt offset with
  | none => .next s
  | some r =>
    match r.access with
    | .writeOnly => cmdWrite v s
    | .readOnly => .next s
    | .readWrite => .next (s.configWrite r v)

/-- A legal host read at `offset` (40_host_commands.md R101): its answer goes to the host, and nothing else changes. -/
def State.portRead (offset : Nat) (s : State) : State := { s with seen := .reg offset (s.readPort offset) :: s.seen }

/-- One host access to the port. Any but an aligned 32-bit one is refused (20_memory.md R69). -/
def portAccess (a : Access) (s : State) : Host.Outcome State Fault Refusal :=
  if a.legal then
    match a with
    | .read _ offset => .next (s.portRead offset)
    | .write _ offset v => portWrite offset v s
  else .refused .illegalPortAccess

end Sys2Proof.Machine
end

