-- ==== Sys2Proof/Machine/Agents.lean ====
section
/-! DEFINITION. What one turn of each agent does (00_scope.md R16): the sequencer, and the host with the platform. -/

namespace Sys2Proof.Machine

/-- A turn of the sequencer: the micro-operation the STATUS word selects (30_encoding.md R84). While not BUSY it takes no step
and all state survives (60_exceptions.md R204). -/
def sequencerTurn (s : State) : Host.Outcome State Fault Refusal :=
  match decodePhase s.status.word with
  | .ok i => exec i s
  | .error .notBusy => .next s
  | .error _ => .fault .noMicroOp

/-- One poll of WAIT (30_encoding.md R90, R92): a read of STATUS; the loop "ends at the first read whose STATE field matches".
After a poll that does not match, the sequencer gets the turns the next gap says before the next poll, one when no gap is
left. Notes: log 5. -/
def State.poll (targets : List RunState) (gaps : List Nat) (s : State) : State :=
  let t := s.portRead Reg.status.offset
  if targets.contains s.status.state then t
  else
    match gaps with
    | [] => { t with agenda := .sequencer :: .host (.wait targets []) :: s.agenda }
    | g :: gs => { t with agenda := List.replicate g .sequencer ++ .host (.wait targets gs) :: s.agenda }

/-- A turn of the host or the platform. -/
def hostTurn (e : HostEvent) (s : State) : Host.Outcome State Fault Refusal :=
  match e with
  | .port a => portAccess a s
  | .wait targets gaps => .next (s.poll targets gaps)
  | .memWrite a v => .next (s.hostWrite a v)
  | .memRead a => .next (s.hostRead a)
  | .reset => .next s.resetEvent
  | .platform p => .next { s with platform := p }

/-- One turn of the interleaving: the first pending turn is taken, and the sequencer's when none is pending
(40_host_commands.md R100, 70_reset_and_hazards.md R222). Notes: log 3. -/
def nextTurn (s : State) : Host.Outcome State Fault Refusal :=
  match s.agenda with
  | [] => sequencerTurn s
  | .sequencer :: rest => sequencerTurn { s with agenda := rest }
  | .host e :: rest => hostTurn e { s with agenda := rest }

/-- The state whose very next step runs the instruction of opcode-table word `w` (`decodeTableWord`): a command word, or any
other word that selects nothing, is the host's next write to CMD; a STATUS word that selects a micro-operation puts the
block BUSY at that phase, with the sequencer's turn next. Notes: log 4. -/
def State.presenting (s : State) (w : Word) : State :=
  match decodeCmd w, decodePhase w with
  | .error _, .ok i =>
    { s with
      status := { s.status with state := .busy, phase := i.phase }
      agenda := .sequencer :: s.agenda }
  | _, _ => { s with agenda := .host (.port (.write 32 Reg.cmd.offset w)) :: s.agenda }

end Sys2Proof.Machine
end

