-- ==== Sys2Proof/Machine/Step.lean ====
section
/-! DEFINITION. One step of the machine, and how an instruction is placed where the step takes its next one. -/

namespace Sys2Proof.Machine

/-- One step: one turn of one agent (00_scope.md R16). -/
def step (s : State) : Host.Outcome State Fault Refusal := nextTurn s

/-- `s` with the instruction of `w` placed where `step` takes its next one (log 4). -/
def State.withFetchWord (s : State) (nbits w : Nat) : State := s.presenting (BitVec.ofNat 32 (w % 2 ^ nbits))

end Sys2Proof.Machine
end

