-- ==== Sys2Proof/Machine/Script.lean ====
section
/-! DEFINITION. Host scripts (30_encoding.md R90 to R92): the transactions each line stands for, and the turns a script is
played as, at any pace. -/

namespace Sys2Proof.Machine

/-! ### Lines as transactions -/

/-- `W <REG>, <value>`: (write, offset, data). -/
def writeOf (r : Reg) (v : Word) : Transaction := .access (.write 32 r.offset v)

/-- `W64 <X>, <v>`: the LO word, then the HI word (30_encoding.md R91). -/
def writes64 (x : Reg64) (v : BitVec 64) : List Transaction :=
  [writeOf x.lo (v.extractLsb' 0 32), writeOf x.hi (v.extractLsb' 32 32)]

/-- The value `(quality << 1) | alpha` SETUP writes to CONFIG (30_encoding.md R91). -/
def configWord (alpha : Bool) (quality : BitVec 2) : Word := (quality.setWidth 32 <<< 1) ||| (BitVec.ofBool alpha).setWidth 32

/-- The transactions of a line (30_encoding.md R90, R92) or pseudo-line (R91). -/
def expandLine : Line → List Transaction
  | .w r v => [writeOf r v]
  | .r r => [.access (.read 32 r.offset)]
  | .cmd i => [writeOf .cmd (encode i)]
  | .wait targets => [.wait targets]
  | .w64 x v => writes64 x v
  | .setup w h alpha quality src srcLen out cap =>
    [writeOf .width w, writeOf .height h, writeOf .config (configWord alpha quality)]
      ++ writes64 .srcBase src ++ writes64 .srcLen srcLen ++ writes64 .outBase out ++ writes64 .outCap cap
  | .encode => [writeOf .cmd (encode .encodeImage), .wait [.done, .error]]
  | .encodeBlk bx y =>
    [writeOf .blockX bx, writeOf .blockY y, writeOf .cmd (encode .encodeBlock), .wait [.done, .error]]
  | .release => [writeOf .cmd (encode .releaseBuffer)]

/-! ### Transactions as turns -/

/-- How one transaction falls among the sequencer's steps: the sequencer turns before it, and for a WAIT those between its
reads of STATUS. The spec leaves both open (30_encoding.md R92, 40_host_commands.md R100). Notes: log 5, log 27. -/
structure Pace where
  before : Nat
  gaps   : List Nat
  deriving DecidableEq, Repr

/-- The host turn of a transaction. -/
def eventOf (gaps : List Nat) : Transaction → HostEvent
  | .access a => .port a
  | .wait targets => .wait targets gaps

/-- The turns of a list of transactions, the first pace being the first transaction's. DESIGN CHOICE (log 27): the paces are the
caller's, and where they have run out no sequencer turn comes before a transaction. -/
def paced : List Pace → List Transaction → List Turn
  | _, [] => []
  | [], x :: xs => .host (eventOf [] x) :: paced [] xs
  | p :: ps, x :: xs => List.replicate p.before .sequencer ++ .host (eventOf p.gaps x) :: paced ps xs

/-- The turns of a script played at the given paces, one for each transaction of its lines, in order. How many sequencer steps
fall between two lines, or between two reads of a WAIT, is DESIGN CHOICE of the caller, not of the script (log 5, log 27). -/
def script (paces : List Pace) (ls : List Line) : List Turn := paced paces (ls.flatMap expandLine)

/-- The transaction a turn plays; none for a turn of the sequencer and for what is no transaction of a script. -/
def Turn.transaction : Turn → Option Transaction
  | .host (.port a) => some (.access a)
  | .host (.wait targets _) => some (.wait targets)
  | .host _ | .sequencer => none

end Sys2Proof.Machine
end

