-- ==== Sys2Proof/Safety.lean ====
section
/-! DEFINITION. What claims are stated in: the invariant every reachable state has (10_state.md R25, R26, R35, R36, R38, R39,
40_host_commands.md R110 to R116), a command the host leaves alone (70_reset_and_hazards.md R216, R218), and the output
being right so far (41_tiler.md R136, R142). -/

namespace Sys2Proof.Machine

/-- The cursor of a running command (10_state.md R36, R38): in IMAGE mode inside the tile grid with BLOCKS_DONE the sub-block
index of 41_tiler.md R135, in BLOCK mode all zero. -/
def State.CursorOk (s : State) : Prop :=
  match s.cursor.mode with
  | .image =>
    s.cursor.tx.toNat < s.cfg.tilesWide ∧ s.cursor.ty.toNat < s.cfg.tilesHigh ∧
      s.blocksDone.toNat = 4 * (s.cursor.ty.toNat * s.cfg.tilesWide + s.cursor.tx.toNat) + s.cursor.q.toNat
  | .block => s.cursor.tx = 0 ∧ s.cursor.ty = 0 ∧ s.cursor.q = 0 ∧ s.blocksDone = 0

/-- The phase and `wpos` of a running command (10_state.md R39, 42_block_encoder.md R154, 43_alpha_packer.md R175, R176): the
alpha phases only with alpha, and `wpos` 8 from EMIT_ALPHA on. -/
def State.PhaseOk (s : State) : Prop :=
  match s.status.phase with
  | .none => False
  | .gather => s.cursor.wpos = 0
  | .alphaPack | .emitAlpha => s.cfg.hasAlpha = true ∧ s.cursor.wpos = 0
  | .quantize | .emitColor | .advance => s.cursor.wpos = if s.cfg.hasAlpha then 8 else 0

/-- What the start checks establish and nothing undoes while BUSY (40_host_commands.md R104, R110 to R116). -/
structure State.Running (s : State) : Prop where
  dimension : s.cfg.badDimension = false
  regions   : s.cfg.regionError (s.cfg.reqLen s.cursor.mode) = .none
  length    : s.outLen.toNat = s.cfg.reqLen s.cursor.mode
  cursor    : s.CursorOk
  phase     : s.PhaseOk
  /-- The record of what the command wrote: a byte already written stands in memory, unless the host wrote it too
  (20_memory.md R76). -/
  recorded  : ∀ j, j < s.emitted → s.cfg.outBase.toNat + j ∉ s.race.hostOut →
    s.mem.read (s.cfg.outBase.toNat + j) = s.race.blockOut.read (s.cfg.outBase.toNat + j)

/-- The invariant of the machine. -/
structure State.Inv (s : State) : Prop where
  /-- Host memory keeps its canonical form (log 1). -/
  memWf     : s.mem.wf
  /-- So do the records of it (log 8). -/
  beforeWf  : s.race.memBefore.wf
  blockWf   : s.race.blockOut.wf
  /-- "PHASE = 0 if and only if STATE is not BUSY" (10_state.md R25). -/
  phaseBusy : s.status.phase = .none ↔ s.status.state ≠ .busy
  /-- "ERR_CODE is non-zero if and only if STATE = ERROR" (10_state.md R26). -/
  errIff    : s.status.errCode ≠ .none ↔ s.status.state = .error
  /-- `wpos` in {0, 8} (10_state.md R39). -/
  wposTwo   : s.cursor.wpos = 0 ∨ s.cursor.wpos = 8
  /-- The largest OUT_LEN is 2^32 (10_state.md R35). -/
  lenMax    : s.outLen.toNat ≤ 2 ^ 32
  /-- The largest BLOCKS_DONE is 2^28 (10_state.md R38). -/
  doneMax   : s.blocksDone.toNat ≤ 2 ^ 28
  running   : s.status.state = .busy → s.Running

/-- The host has kept its duties during the running command: it wrote neither the source region (70_reset_and_hazards.md
R216) nor the output region (R218). -/
def State.Untouched (s : State) : Prop := s.race.srcTainted = false ∧ s.race.hostOut = []

/-- The platform answers every access of the block and every request to the quantizer (20_memory.md R79,
70_reset_and_hazards.md R220). -/
def State.Answering (s : State) : Prop :=
  s.platform.srcFails = false ∧ s.platform.outFails = false ∧ s.platform.quantMute = false

/-- The datapath and the output region of a running command are right so far: the gather buffer holds the current sub-block
once GATHER has run, acc its alpha code once ALPHA_PACK has, ccode the quantizer's answer once QUANTIZE has; every byte
already written is the one the command writes there, and every other byte of the output region is as before the command. -/
structure State.DataOk (s : State) : Prop where
  pixels   : s.status.phase ≠ .gather → s.pix = gatherAt s.cfg s.mem s.origin
  alpha    : s.status.phase = .emitAlpha → s.acc = alphaCode s.pix
  color    : s.status.phase = .emitColor → s.ccode = Config.Q (rgbs s.pix) s.cfg.quality
  written  : ∀ j, j < s.emitted → s.mem.read (s.cfg.outBase.toNat + j) = s.outputByte j
  untilNow : ∀ j, s.emitted ≤ j → j < s.outLen.toNat →
    s.mem.read (s.cfg.outBase.toNat + j) = s.race.memBefore.read (s.cfg.outBase.toNat + j)

/-- `DataOk` of a running command the host leaves alone. -/
def State.Right (s : State) : Prop := s.status.state = .busy → s.Untouched → s.DataOk

/-- The sequencer steps of one sub-block: 6 with alpha, 4 without (41_tiler.md R141). -/
def Cfg.stepsPerBlock (c : Cfg) : Nat := if c.hasAlpha then 6 else 4

end Sys2Proof.Machine
end

