-- ==== Sys2Proof/Certificates/Slice0/Obligations.lean ====
section
/-! DEFINITION. The statements about ETC1TP, from the numbered rules of spec/. Every one is about every state, reachable or
not, unless the invariant `State.Inv` stands among its premises. -/

open Sys2Proof Sys2Proof.Machine

/-! ### Encoding -/

/-- Words written out from 30_encoding.md R81 and R84 decode to the instructions they stand for; a CMD word with a reserved
bit or a reserved opcode does not decode, whatever it would select as a STATUS word. -/
def Obligations.TabledWordsDecode : Prop :=
  decodeCmd 0b00000000000000000000000000000000#32 = .ok .nop ∧
  decodeCmd 0b00000000000000000000000000000010#32 = .ok .encodeBlock ∧
  decodeCmd 0b00000000000000000000000000000100#32 = .ok .ackError ∧
  decodeCmd 0b00000000000000000000000000010001#32 = .error .reservedBits ∧
  decodeCmd 0b00000000000000000000000000000101#32 = .error .reservedOpcode ∧
  decodePhase 0b00000000000000000000000000010001#32 = .ok .gather ∧
  decodePhase 0b00000000000000000000000001010101#32 = .ok .emitColor ∧
  decodePhase 0b00000000000000000000000001110001#32 = .error .reservedPhase

/-- 30_encoding.md R81: "A word selects a command if and only if it equals the word in the table exactly". -/
def Obligations.CommandWordsAreExact : Prop :=
  ∀ (w : Word) (i : Instr), decodeCmd w = .ok i ↔
    (w = 0x00000000 ∧ i = .nop) ∨ (w = 0x00000001 ∧ i = .encodeImage) ∨ (w = 0x00000002 ∧ i = .encodeBlock) ∨
    (w = 0x00000003 ∧ i = .releaseBuffer) ∨ (w = 0x00000004 ∧ i = .ackError)

/-- Decoding and encoding agree over the whole opcode table: a word is decoded to an instruction exactly when the bits the
instruction's row fixes (mask 0xFFFFFFFF for a command, 0x00000073 for a micro-operation) are those of its encoding. So
decoding an encoded instruction gives it back, no word belongs to two rows, and no bit outside the mask plays a part
(30_encoding.md R81, R84). -/
def Obligations.DecodeAgreesWithEncode : Prop :=
  ∀ (w : Word) (i : Instr), decodeTable w = .ok i ↔ w &&& i.format.mask = encode i

/-- 10_state.md R22: every field of the STATUS word in its place, and the reserved bits 0. -/
def Obligations.StatusWordFields : Prop :=
  ∀ t : Status,
    t.word.extractLsb' 0 2 = t.state.code ∧ t.word.getLsbD 2 = t.ign ∧ t.word.getLsbD 3 = false ∧
    t.word.extractLsb' 4 3 = t.phase.code ∧ t.word.getLsbD 7 = false ∧ t.word.extractLsb' 8 4 = t.errCode.code ∧
    t.word.extractLsb' 12 20 = 0

/-- 00_scope.md R11: the two byte orders, and the byte swap between them. -/
def Obligations.ByteOrders : Prop :=
  ∀ v : Code,
    bytesLE64 v = [v.extractLsb' 0 8, v.extractLsb' 8 8, v.extractLsb' 16 8, v.extractLsb' 24 8,
      v.extractLsb' 32 8, v.extractLsb' 40 8, v.extractLsb' 48 8, v.extractLsb' 56 8] ∧
    bytesBE64 v = (bytesLE64 v).reverse ∧
    bytesLE64 (bswap64 v) = bytesBE64 v ∧
    (∀ u : Code, bytesLE64 u = bytesBE64 v → u = bswap64 v)

/-! ### Reset -/

/-- 10_state.md R46: what the spec says of the state right after reset. Every port offset reads 0. -/
def Obligations.ResetValues : Prop :=
  State.reset.status = { state := .idle, ign := false, phase := .none, errCode := .none } ∧
  (∀ offset, State.reset.readPort offset = 0) ∧
  State.reset.cfg.width = 0 ∧ State.reset.cfg.height = 0 ∧ State.reset.cfg.config = 0 ∧
  State.reset.cfg.blockX = 0 ∧ State.reset.cfg.blockY = 0 ∧ State.reset.cfg.srcBase = 0 ∧ State.reset.cfg.srcLen = 0 ∧
  State.reset.cfg.outBase = 0 ∧ State.reset.cfg.outCap = 0 ∧ State.reset.outLen = 0 ∧ State.reset.blocksDone = 0

/-- 70_reset_and_hazards.md R210 and R212: the reset event, from every state, sets STATUS, every configuration register,
OUT_LEN and BLOCKS_DONE to their reset values; and from a state that is not BUSY it changes no byte of host memory. -/
def Obligations.ResetEventSetsRegisters : Prop :=
  ∀ (s : State) (rest : List Turn), s.agenda = .host .reset :: rest →
    ∃ t, step s = .next t ∧ t.agenda = rest ∧ t.status = State.reset.status ∧ t.cfg = State.reset.cfg ∧ t.outLen = 0 ∧
      t.blocksDone = 0 ∧ (s.status.state ≠ .busy → ∀ a, t.mem.read a = s.mem.read a)

/-- 70_reset_and_hazards.md R211: after a reset that aborts a command, every byte of the output region stands as it was or holds
the one the command would have written there, and every byte outside it, the source region's among them, is unchanged. With a
host that kept its duties, that is the value before the command or the one the rules give. -/
def Obligations.AbortLeavesOldOrNewBytes : Prop :=
  ∀ (s t : State) (rest : List Turn), s.Inv → s.status.state = .busy →
    s.agenda = .host .reset :: rest → step s = .next t →
    (∀ j, j < s.outLen.toNat →
      t.mem.read (s.cfg.outBase.toNat + j) = s.mem.read (s.cfg.outBase.toNat + j) ∨
      t.mem.read (s.cfg.outBase.toNat + j) = s.commandByte j) ∧
    (∀ a, s.inOutput a = false → t.mem.read a = s.mem.read a) ∧
    (s.Right → s.Untouched → ∀ j, j < s.outLen.toNat →
      t.mem.read (s.cfg.outBase.toNat + j) = s.race.memBefore.read (s.cfg.outBase.toNat + j) ∨
      t.mem.read (s.cfg.outBase.toNat + j) = s.outputByte j)

/-! ### The register port -/

/-- 30_encoding.md R86 and 40_host_commands.md R100: a write to a read-write register while not BUSY is kept in the used bits
alone (WIDTH and HEIGHT `v[15:0]`, CONFIG `v[2:0]`, every other register all 32), every other register of the port reads as
before, and nothing outside the configuration registers changes. -/
def Obligations.PortWriteKeepsUsedBits : Prop :=
  ∀ (s : State) (r : Reg) (v : Word) (rest : List Turn), r.access = .readWrite → s.status.state ≠ .busy →
    s.agenda = .host (.port (.write 32 r.offset v)) :: rest →
    ∃ t, step s = .next t ∧ t = { s with cfg := t.cfg, agenda := rest } ∧
      t.readReg r =
        v &&& (if r = .width ∨ r = .height then 0x0000FFFF else if r = .config then 0x00000007 else 0xFFFFFFFF) ∧
      ∀ r', r' ≠ r → t.readReg r' = s.readReg r'

/-- 30_encoding.md R91: the two writes of `W64 <X>, <v>`, however the sequencer's turns fall before them, leave the register
holding `v`. -/
def Obligations.PairWriteSetsRegister : Prop :=
  ∀ (s : State) (paces : List Pace) (x : Reg64) (v : BitVec 64), s.status.state ≠ .busy → s.agenda = script paces [.w64 x v] →
    ∃ t, Host.Core.run core s.agenda.length s = .next t ∧ t.agenda = [] ∧
      (match x with
        | .srcBase => t.cfg = { s.cfg with srcBase := v }
        | .srcLen => t.cfg = { s.cfg with srcLen := v }
        | .outBase => t.cfg = { s.cfg with outBase := v }
        | .outCap => t.cfg = { s.cfg with outCap := v })

/-- 40_host_commands.md R104: a write to a configuration register while BUSY is ignored and sets IGN. -/
def Obligations.BusyConfigWriteIgnored : Prop :=
  ∀ (s : State) (r : Reg) (v : Word) (rest : List Turn), r.access = .readWrite → s.status.state = .busy →
    s.agenda = .host (.port (.write 32 r.offset v)) :: rest →
    step s = .next { s with status := { s.status with ign := true }, agenda := rest }

/-- 40_host_commands.md R102 and 30_encoding.md R87: a write to STATUS (0x04), OUT_LEN_LO (0x40), OUT_LEN_HI (0x44),
BLOCKS_DONE (0x48), to the reserved offsets 0x1C and 0x4C, or to any aligned offset from 0x50 on changes nothing, and a read
at a reserved or unmapped offset returns 0, in every state. -/
def Obligations.ReadOnlyAndReservedOffsets : Prop :=
  ∀ (s : State) (offset : Nat) (v : Word) (rest : List Turn), offset % 4 = 0 →
    ((offset = 0x04 ∨ offset = 0x40 ∨ offset = 0x44 ∨ offset = 0x48 ∨ offset = 0x1C ∨ offset = 0x4C ∨ 0x50 ≤ offset) →
      s.agenda = .host (.port (.write 32 offset v)) :: rest → step s = .next { s with agenda := rest }) ∧
    ((offset = 0x1C ∨ offset = 0x4C ∨ 0x50 ≤ offset) →
      s.agenda = .host (.port (.read 32 offset)) :: rest →
      step s = .next { s with agenda := rest, seen := .reg offset 0 :: s.seen })

/-- 40_host_commands.md R101: a read returns the register's current value and has no side effect on any state; CMD reads 0 and
a 64-bit register is read as its two halves. -/
def Obligations.PortReadHasNoSideEffect : Prop :=
  ∀ (s : State) (r : Reg) (rest : List Turn), s.agenda = .host (.port (.read 32 r.offset)) :: rest →
    step s = .next { s with
      agenda := rest
      seen := .reg r.offset
        (match r with
          | .cmd => 0
          | .status => s.status.word
          | .width => s.cfg.width.setWidth 32
          | .height => s.cfg.height.setWidth 32
          | .config => s.cfg.config.setWidth 32
          | .blockX => s.cfg.blockX
          | .blockY => s.cfg.blockY
          | .srcBaseLo => s.cfg.srcBase.extractLsb' 0 32
          | .srcBaseHi => s.cfg.srcBase.extractLsb' 32 32
          | .srcLenLo => s.cfg.srcLen.extractLsb' 0 32
          | .srcLenHi => s.cfg.srcLen.extractLsb' 32 32
          | .outBaseLo => s.cfg.outBase.extractLsb' 0 32
          | .outBaseHi => s.cfg.outBase.extractLsb' 32 32
          | .outCapLo => s.cfg.outCap.extractLsb' 0 32
          | .outCapHi => s.cfg.outCap.extractLsb' 32 32
          | .outLenLo => s.outLen.extractLsb' 0 32
          | .outLenHi => s.outLen.extractLsb' 32 32
          | .blocksDone => s.blocksDone) :: s.seen }

/-- 20_memory.md R69: an access of a width other than 32 bits, or at an offset not a multiple of 4, is refused. -/
def Obligations.IllegalAccessRefused : Prop :=
  ∀ (s : State) (width offset : Nat) (v : Word) (rest : List Turn), (width ≠ 32 ∨ offset % 4 ≠ 0) →
    (s.agenda = .host (.port (.write width offset v)) :: rest → step s = .refused .illegalPortAccess) ∧
    (s.agenda = .host (.port (.read width offset)) :: rest → step s = .refused .illegalPortAccess)

/-! ### A step runs the decoded instruction -/

/-- 40_host_commands.md R103: a write to CMD (offset 0) whose word decodes to `i` is `i` at that state, the turn taken. -/
def Obligations.StepRunsCommandWritten : Prop :=
  ∀ (s : State) (w : Word) (i : Instr) (rest : List Turn), decodeCmd w = .ok i →
    s.agenda = .host (.port (.write 32 0 w)) :: rest → step s = exec i { s with agenda := rest }

/-- 30_encoding.md R84: on the sequencer's turn (the first pending one, or no turn pending) the step is the micro-operation
the STATUS word selects, the turn taken. -/
def Obligations.StepRunsSelectedMicroOp : Prop :=
  ∀ (s : State) (i : Instr) (rest : List Turn), s.status.state = .busy → i.format = .phase → s.status.phase = i.phase →
    decodePhase s.status.word = .ok i ∧
    (s.agenda = .sequencer :: rest → step s = exec i { s with agenda := rest }) ∧
    (s.agenda = [] → step s = exec i s)

/-- 60_exceptions.md R204: in IDLE, DONE and ERROR the sequencer takes no step and all state survives. -/
def Obligations.NotBusyTakesNoStep : Prop :=
  ∀ (s : State) (rest : List Turn), s.status.state ≠ .busy →
    (s.agenda = [] → step s = .next s) ∧ (s.agenda = .sequencer :: rest → step s = .next { s with agenda := rest })

/-! ### The commands -/

/-- 40_host_commands.md R105, in each of the four states. -/
def Obligations.NopEffect : Prop :=
  ∀ s : State,
    ((s.status.state = .idle ∨ s.status.state = .done) →
      exec .nop s = .next { s with status := { s.status with ign := false } }) ∧
    (s.status.state = .error → exec .nop s = .next s) ∧
    (s.status.state = .busy → exec .nop s = .next { s with status := { s.status with ign := true } })

/-- 40_host_commands.md R107, in each of the four states. -/
def Obligations.ReleaseBufferEffect : Prop :=
  ∀ s : State,
    (s.status.state = .done →
      exec .releaseBuffer s = .next { s with status := { s.status with state := .idle, ign := false } }) ∧
    (s.status.state = .idle →
      exec .releaseBuffer s =
        .next { s with status := { s.status with state := .error, errCode := .badState, ign := false } }) ∧
    ((s.status.state = .busy ∨ s.status.state = .error) →
      exec .releaseBuffer s = .next { s with status := { s.status with ign := true } })

/-- 40_host_commands.md R108 and 60_exceptions.md R195: the error return from ERROR; BAD_STATE from IDLE and DONE; ignored
while BUSY. -/
def Obligations.AckErrorEffect : Prop :=
  ∀ s : State,
    (s.status.state = .error →
      exec .ackError s =
        .next { s with status := { s.status with state := .idle, errCode := .none, ign := false } }) ∧
    ((s.status.state = .idle ∨ s.status.state = .done) →
      exec .ackError s = .next { s with status := { s.status with state := .error, errCode := .badState, ign := false } }) ∧
    (s.status.state = .busy → exec .ackError s = .next { s with status := { s.status with ign := true } })

/-- 40_host_commands.md R118: a CMD write of any word while BUSY is ignored and sets IGN. -/
def Obligations.BusyIgnoresEveryCommand : Prop :=
  ∀ (s : State) (w : Word) (rest : List Turn), s.status.state = .busy → s.agenda = .host (.port (.write 32 0 w)) :: rest →
    step s = .next { s with status := { s.status with ign := true }, agenda := rest }

/-- 40_host_commands.md R117: a CMD write while ERROR: ACK_ERROR returns, NOP does nothing, every other word, illegal ones
among them, is ignored with IGN set and ERR_CODE kept. -/
def Obligations.ErrorStateCommands : Prop :=
  ∀ (s : State) (w : Word) (rest : List Turn), s.status.state = .error → s.agenda = .host (.port (.write 32 0 w)) :: rest →
    (w = 0x00000004 →
      step s = .next { s with
        status := { s.status with state := .idle, errCode := .none, ign := false }, agenda := rest }) ∧
    (w = 0x00000000 → step s = .next { s with agenda := rest }) ∧
    (w ≠ 0x00000004 → w ≠ 0x00000000 →
      step s = .next { s with status := { s.status with ign := true }, agenda := rest })

/-- 30_encoding.md R82: a word with RSV not 0, or OPCODE 0x5 to 0xF, written to CMD: ILLEGAL_CMD in IDLE and DONE, ignored with
IGN set in BUSY and ERROR. -/
def Obligations.IllegalCommandWord : Prop :=
  ∀ (s : State) (w : Word) (rest : List Turn), (w.extractLsb' 4 28 ≠ 0 ∨ 5 ≤ (w.extractLsb' 0 4).toNat) →
    s.agenda = .host (.port (.write 32 0 w)) :: rest →
    ((s.status.state = .idle ∨ s.status.state = .done) →
      step s = .next { s with
        status := { s.status with state := .error, errCode := .illegalCmd, ign := false }, agenda := rest }) ∧
    ((s.status.state = .busy ∨ s.status.state = .error) →
      step s = .next { s with status := { s.status with ign := true }, agenda := rest })

/-- 40_host_commands.md R106 and R109: an encode command from DONE is BAD_STATE; in BUSY and ERROR it is ignored with IGN
set. -/
def Obligations.EncodeOutsideIdle : Prop :=
  ∀ (s : State) (i : Instr), (i = .encodeImage ∨ i = .encodeBlock) →
    (s.status.state = .done →
      exec i s = .next { s with status := { s.status with state := .error, errCode := .badState, ign := false } }) ∧
    ((s.status.state = .busy ∨ s.status.state = .error) →
      exec i s = .next { s with status := { s.status with ign := true } })

/-- 40_host_commands.md R110 to R115 and 60_exceptions.md R192: the start checks of both encode commands from IDLE, each failing
one reported when those before it pass: DIMENSION with OUT_LEN unchanged; then, with OUT_LEN written, RANGE, OUTPUT_SIZE and
OVERLAP. Nothing else changes but IGN, which the dispatch cleared (R103). -/
def Obligations.StartChecksInOrder : Prop :=
  ∀ (s : State) (i : Instr) (req : Nat), s.status.state = .idle →
    (i = .encodeImage ∧
        req = 4 * ((s.cfg.width.toNat + 7) / 8) * ((s.cfg.height.toNat + 7) / 8) * (if s.cfg.config.getLsbD 0 then 16 else 8) ∨
      i = .encodeBlock ∧ req = if s.cfg.config.getLsbD 0 then 16 else 8) →
    let W := s.cfg.width.toNat
    let H := s.cfg.height.toNat
    let src := s.cfg.srcBase.toNat
    let out := s.cfg.outBase.toNat
    let fails (code : ErrCode) (len : BitVec 64) : Prop :=
      exec i s = .next { s with
        status := { s.status with state := .error, errCode := code, ign := false }, outLen := len }
    ((W = 0 ∨ H = 0 ∨ s.cfg.srcLen.toNat < 4 * W * H) → fails .dimension s.outLen) ∧
    (W ≠ 0 → H ≠ 0 → 4 * W * H ≤ s.cfg.srcLen.toNat →
      ((src + 4 * W * H > 2 ^ 64 ∨ out + req > 2 ^ 64) → fails .range (BitVec.ofNat 64 req)) ∧
      (src + 4 * W * H ≤ 2 ^ 64 → out + req ≤ 2 ^ 64 →
        (s.cfg.outCap.toNat < req → fails .outputSize (BitVec.ofNat 64 req)) ∧
        (req ≤ s.cfg.outCap.toNat → src < out + req → out < src + 4 * W * H → fails .overlap (BitVec.ofNat 64 req))))

/-- 40_host_commands.md R106, R109, R112 and R116: from IDLE, with every start check passing, both encode commands start:
OUT_LEN is the required length, BLOCKS_DONE 0, the cursor at its start in the command's mode, STATE BUSY and PHASE GATHER; and
nothing else of the block changes, ERR_CODE among it. (What the record `race` is set to is the model's own and no rule's: log 8, log
9, log 10.) -/
def Obligations.EncodeStarts : Prop :=
  ∀ (s : State) (i : Instr) (m : Mode) (req : Nat), s.status.state = .idle →
    (i = .encodeImage ∧ m = .image ∧
        req = 4 * ((s.cfg.width.toNat + 7) / 8) * ((s.cfg.height.toNat + 7) / 8) * (if s.cfg.config.getLsbD 0 then 16 else 8) ∨
      i = .encodeBlock ∧ m = .block ∧ req = if s.cfg.config.getLsbD 0 then 16 else 8) →
    let W := s.cfg.width.toNat
    let H := s.cfg.height.toNat
    let src := s.cfg.srcBase.toNat
    let out := s.cfg.outBase.toNat
    W ≠ 0 → H ≠ 0 → 4 * W * H ≤ s.cfg.srcLen.toNat → src + 4 * W * H ≤ 2 ^ 64 → out + req ≤ 2 ^ 64 →
    req ≤ s.cfg.outCap.toNat → (out + req ≤ src ∨ src + 4 * W * H ≤ out) →
    exec i s = .next { s with
      status := { s.status with state := .busy, ign := false, phase := .gather }
      outLen := BitVec.ofNat 64 req
      blocksDone := 0
      cursor := { mode := m, tx := 0, ty := 0, q := 0, wpos := 0 }
      race := { s.race with memBefore := s.mem, srcTainted := false, hostOut := [], blockOut := [] } }

/-- The frame of the five commands. None stores to memory, writes a configuration register or touches the gather buffer, acc or
ccode; NOP, RELEASE_BUFFER and ACK_ERROR also keep OUT_LEN, BLOCKS_DONE, the cursor and PHASE; NOP keeps STATE and ERR_CODE;
an encode command that does not start keeps BLOCKS_DONE, the cursor and PHASE (40_host_commands.md R105 to R110, 60_exceptions.md
R193, R194). -/
def Obligations.CommandFrame : Prop :=
  ∀ (s t : State) (i : Instr), i.format = .cmd → exec i s = .next t →
    ((∀ a, t.mem.read a = s.mem.read a) ∧ t.cfg = s.cfg ∧ t.pix = s.pix ∧ t.acc = s.acc ∧ t.ccode = s.ccode ∧
      t.platform = s.platform ∧ t.agenda = s.agenda ∧ t.seen = s.seen) ∧
    ((i = .nop ∨ i = .releaseBuffer ∨ i = .ackError) →
      t.outLen = s.outLen ∧ t.blocksDone = s.blocksDone ∧ t.cursor = s.cursor ∧ t.status.phase = s.status.phase ∧
        t.race = s.race) ∧
    (i = .nop → t.status.state = s.status.state ∧ t.status.errCode = s.status.errCode) ∧
    ((i = .encodeImage ∨ i = .encodeBlock) → (t.status.state ≠ .busy ∨ s.status.state = .busy) →
      t.blocksDone = s.blocksDone ∧ t.cursor = s.cursor ∧ t.status.phase = s.status.phase ∧ t.race = s.race)

/-- 40_host_commands.md R112: the required length counts B bytes for every sub-block visited, never passes 2^32, and for W and H
multiples of 8 is `(W/4)*(H/4)*B`. -/
def Obligations.RequiredLength : Prop :=
  ∀ (c : Cfg) (B : Nat), B = (if c.config.getLsbD 0 then 16 else 8) →
    c.reqLen .image = 4 * ((c.width.toNat + 7) / 8) * ((c.height.toNat + 7) / 8) * B ∧
    c.reqLen .block = B ∧
    c.reqLen .image ≤ 2 ^ 32 ∧
    (c.width.toNat % 8 = 0 → c.height.toNat % 8 = 0 →
      c.reqLen .image = (c.width.toNat / 4) * (c.height.toNat / 4) * B)

/-! ### The micro-operations -/

/-- 10_state.md R36, 41_tiler.md R134 and R139: the corner of the current sub-block. -/
def Obligations.CornerOfCursor : Prop :=
  ∀ s : State,
    (s.cursor.mode = .image →
      s.origin = (((8 * s.cursor.tx.toNat + 4 * (s.cursor.q.toNat &&& 1) : Nat) : Int),
        ((8 * s.cursor.ty.toNat + 4 * (s.cursor.q.toNat >>> 1) : Nat) : Int))) ∧
    (s.cursor.mode = .block → s.origin = (s.cfg.blockX.toInt, s.cfg.blockY.toInt))

/-- 42_block_encoder.md R150 to R154 and 20_memory.md R63, R64: GATHER with the source region inside the address space and a
platform that answers. Entry `4*y + x` is the pixel at image position `(bx + x, H - 1 - (by + y))`, its four bytes R, G, B, A
from low to high, or 0 out of bounds. (Once the host has written the source region an in-bounds pixel is any value, R76.)
PHASE goes on by HAS_ALPHA; nothing else of the block changes. -/
def Obligations.GatherFillsBuffer : Prop :=
  ∀ s : State, s.cfg.srcBase.toNat + 4 * s.cfg.width.toNat * s.cfg.height.toNat ≤ 2 ^ 64 → s.platform.srcFails = false →
    ∃ t, exec .gather s = .next t ∧
      t = { s with
        pix := t.pix
        status := { s.status with phase := if s.cfg.config.getLsbD 0 then .alphaPack else .quantize } } ∧
      ∀ (x y : Nat) (hx : x < 4) (hy : y < 4),
        let posX : Int := s.origin.1 + x
        let posY : Int := (s.cfg.height.toNat : Int) - 1 - (s.origin.2 + y)
        let addr : Nat := s.cfg.srcBase.toNat + 4 * (posY * s.cfg.width.toNat + posX).toNat
        (0 ≤ posX ∧ posX < s.cfg.width.toNat ∧ 0 ≤ posY ∧ posY < s.cfg.height.toNat →
          s.race.srcTainted = false →
          t.pix[4 * y + x] = s.mem.read (addr + 3) ++ s.mem.read (addr + 2) ++ s.mem.read (addr + 1) ++ s.mem.read addr) ∧
        (¬(0 ≤ posX ∧ posX < s.cfg.width.toNat ∧ 0 ≤ posY ∧ posY < s.cfg.height.toNat) → t.pix[4 * y + x] = 0)

/-- 43_alpha_packer.md R171 to R174: ALPHA_PACK puts the high four alpha bits of gather entry `4*(n & 3) + (n >> 2)` in nibble
`n` of acc, for every n, and changes nothing else but PHASE. -/
def Obligations.AlphaPackNibbles : Prop :=
  ∀ s : State, ∃ a : Code,
    exec .alphaPack s = .next { s with acc := a, status := { s.status with phase := .emitAlpha } } ∧
    ∀ (n : Nat) (hn : n < 16), a.extractLsb' (4 * n) 4 = (s.pix[4 * (n % 4) + n / 4]).extractLsb' 28 4

/-- 43_alpha_packer.md R178: nibble `n` of the alpha code of the sub-block at `(bx, by)` is the high half of the alpha byte of
image pixel `(bx + (n >> 2), H - 1 - (by + (n & 3)))`, or 0 when that position is out of bounds. -/
def Obligations.AlphaNibbleInImageSpace : Prop :=
  ∀ (c : Cfg) (m : Memory) (bx by' : Int) (n : Nat), n < 16 →
    let posX : Int := bx + (n / 4 : Nat)
    let posY : Int := (c.height.toNat : Int) - 1 - (by' + (n % 4 : Nat))
    (alphaCode (gatherAt c m (bx, by'))).extractLsb' (4 * n) 4 =
      if 0 ≤ posX ∧ posX < c.width.toNat ∧ 0 ≤ posY ∧ posY < c.height.toNat then
        (m.read (c.srcBase.toNat + 4 * (posY * c.width.toNat + posX).toNat + 3)).extractLsb' 4 4
      else 0

/-- 43_alpha_packer.md R175: EMIT_ALPHA, with the eight bytes inside the address space and a platform that answers, writes
`acc[8i+7 : 8i]` to `OUT_BASE + BLOCKS_DONE * 16 + i`, sets wpos to 8 and PHASE to QUANTIZE; every byte outside those eight
reads as before and nothing else of the block changes. (A byte the host also wrote during the command may keep the host's
value, 20_memory.md R76.) -/
def Obligations.EmitAlphaWritesCode : Prop :=
  ∀ s : State, s.mem.wf → s.cfg.outBase.toNat + s.blocksDone.toNat * 16 + 8 ≤ 2 ^ 64 → s.platform.outFails = false →
    ∃ t, exec .emitAlpha s = .next t ∧
      t = { s with
        mem := t.mem
        race := { s.race with draws := t.race.draws, blockOut := t.race.blockOut }
        cursor := { s.cursor with wpos := 8 }
        status := { s.status with phase := .quantize } } ∧
      (∀ i, i < 8 →
        t.mem.read (s.alphaAddr + i) = s.acc.extractLsb' (8 * i) 8 ∨
        (s.alphaAddr + i ∈ s.race.hostOut ∧ t.mem.read (s.alphaAddr + i) = s.mem.read (s.alphaAddr + i))) ∧
      (∀ a, (a < s.alphaAddr ∨ s.alphaAddr + 8 ≤ a) → t.mem.read a = s.mem.read a) ∧
      s.alphaAddr = s.cfg.outBase.toNat + s.blocksDone.toNat * 16

/-- 42_block_encoder.md R155 and R156: QUANTIZE, with a quantizer that answers, puts `Q` of the sixteen triples
`(pix[k][7:0], pix[k][15:8], pix[k][23:16])` and QUALITY in ccode and goes on to EMIT_COLOR. -/
def Obligations.QuantizeAsksQuantizer : Prop :=
  ∀ s : State, s.platform.quantMute = false →
    exec .quantize s = .next { s with
      ccode := Config.Q
        (Vector.ofFn fun k : Fin 16 =>
          { r := (s.pix[k]).extractLsb' 0 8, g := (s.pix[k]).extractLsb' 8 8, b := (s.pix[k]).extractLsb' 16 8 })
        (s.cfg.config.extractLsb' 1 2)
      status := { s.status with phase := .emitColor } }

/-- 42_block_encoder.md R155: the alpha byte is not sent: two states whose gather buffers differ in alpha alone get one colour
code from QUANTIZE. -/
def Obligations.AlphaNotSentToQuantizer : Prop :=
  ∀ s s' t t' : State, s.cfg = s'.cfg →
    (∀ (k : Nat) (hk : k < 16), (s.pix[k]).extractLsb' 0 24 = (s'.pix[k]).extractLsb' 0 24) →
    exec .quantize s = .next t → exec .quantize s' = .next t' → t.ccode = t'.ccode

/-- 42_block_encoder.md R157 and 10_state.md R37: EMIT_COLOR, with the eight bytes inside the address space and a platform that
answers, writes `ccode[63-8i : 56-8i]` to `OUT_BASE + BLOCKS_DONE * B + wpos + i` and sets PHASE to ADVANCE; every byte outside
those eight reads as before and nothing else of the block changes. (A byte the host also wrote during the command may keep the
host's value, 20_memory.md R76.) -/
def Obligations.EmitColorWritesCode : Prop :=
  ∀ s : State, s.mem.wf → s.colorAddr + 8 ≤ 2 ^ 64 → s.platform.outFails = false →
    ∃ t, exec .emitColor s = .next t ∧
      t = { s with
        mem := t.mem
        race := { s.race with draws := t.race.draws, blockOut := t.race.blockOut }
        status := { s.status with phase := .advance } } ∧
      (∀ i, i < 8 →
        t.mem.read (s.colorAddr + i) = s.ccode.extractLsb' (56 - 8 * i) 8 ∨
        (s.colorAddr + i ∈ s.race.hostOut ∧ t.mem.read (s.colorAddr + i) = s.mem.read (s.colorAddr + i))) ∧
      (∀ a, (a < s.colorAddr ∨ s.colorAddr + 8 ≤ a) → t.mem.read a = s.mem.read a) ∧
      s.colorAddr =
        s.cfg.outBase.toNat + s.blocksDone.toNat * (if s.cfg.config.getLsbD 0 then 16 else 8) + s.cursor.wpos.toNat

/-- 41_tiler.md R137: ADVANCE counts the sub-block; the last one (BLOCK mode, or BLOCKS_DONE now `4 * TW * TH`) ends in DONE;
any other moves `q`, then `tx`, then `ty`, clears wpos and goes on with GATHER. -/
def Obligations.AdvanceEffect : Prop :=
  ∀ s : State,
    let TW := (s.cfg.width.toNat + 7) / 8
    let TH := (s.cfg.height.toNat + 7) / 8
    let last := s.cursor.mode = .block ∨ (s.blocksDone + 1).toNat = 4 * TW * TH
    let goesOn (c : Cursor) : Prop :=
      exec .advance s = .next { s with
        blocksDone := s.blocksDone + 1
        cursor := { c with wpos := 0 }
        status := { s.status with phase := .gather } }
    (last →
      exec .advance s = .next { s with
        blocksDone := s.blocksDone + 1
        status := { s.status with state := .done, phase := .none } }) ∧
    (¬last → s.cursor.q.toNat < 3 → goesOn { s.cursor with q := s.cursor.q + 1 }) ∧
    (¬last → s.cursor.q = 3 → s.cursor.tx.toNat + 1 < TW → goesOn { s.cursor with q := 0, tx := s.cursor.tx + 1 }) ∧
    (¬last → s.cursor.q = 3 → ¬s.cursor.tx.toNat + 1 < TW →
      goesOn { s.cursor with q := 0, tx := 0, ty := s.cursor.ty + 1 })

/-- The frame of the four micro-operations that store nothing, GATHER, ALPHA_PACK, QUANTIZE and ADVANCE: every byte of memory,
every configuration register and OUT_LEN are unchanged, and so are IGN and ERR_CODE; each but the named one keeps pix (GATHER),
acc (ALPHA_PACK), ccode (QUANTIZE), BLOCKS_DONE, the cursor and STATE (ADVANCE). -/
def Obligations.StorelessMicroOpFrame : Prop :=
  ∀ (s t : State) (i : Instr), (i = .gather ∨ i = .alphaPack ∨ i = .quantize ∨ i = .advance) → exec i s = .next t →
    (∀ a, t.mem.read a = s.mem.read a) ∧ t.cfg = s.cfg ∧ t.outLen = s.outLen ∧
    t.status.ign = s.status.ign ∧ t.status.errCode = s.status.errCode ∧
    t.platform = s.platform ∧ t.agenda = s.agenda ∧ t.seen = s.seen ∧
    t.race = s.race ∧
    (i ≠ .gather → t.pix = s.pix) ∧ (i ≠ .alphaPack → t.acc = s.acc) ∧ (i ≠ .quantize → t.ccode = s.ccode) ∧
    (i ≠ .advance → t.blocksDone = s.blocksDone ∧ t.cursor = s.cursor ∧ t.status.state = s.status.state)

/-- The frame of the two micro-operations that store, EMIT_ALPHA and EMIT_COLOR, whenever they give a next state: every byte
outside the eight at the address the meaning computes reads as before, and every register but wpos (EMIT_ALPHA) and PHASE is
unchanged. -/
def Obligations.StoringMicroOpFrame : Prop :=
  ∀ (s t : State) (i : Instr) (addr : Nat), s.mem.wf →
    (i = .emitAlpha ∧ addr = s.alphaAddr ∨ i = .emitColor ∧ addr = s.colorAddr) → exec i s = .next t →
    (∀ a, (a < addr ∨ addr + 8 ≤ a) → t.mem.read a = s.mem.read a) ∧
    t.cfg = s.cfg ∧ t.outLen = s.outLen ∧ t.blocksDone = s.blocksDone ∧ t.pix = s.pix ∧ t.acc = s.acc ∧ t.ccode = s.ccode ∧
    t.status = { s.status with phase := t.status.phase } ∧
    t.cursor = { s.cursor with wpos := t.cursor.wpos } ∧ (i = .emitColor → t.cursor = s.cursor) ∧
    t.platform = s.platform ∧ t.agenda = s.agenda ∧ t.seen = s.seen ∧
    t.race = { s.race with draws := t.race.draws, blockOut := t.race.blockOut }

/-- 20_memory.md R79 and 70_reset_and_hazards.md R220: where a block access fails, or the quantizer never answers, there is no
step. GATHER of a sub-block with no pixel in bounds makes no access and is not stopped. -/
def Obligations.UnansweredPortsStop : Prop :=
  ∀ s : State,
    (s.platform.srcFails = true → s.cfg.srcBase.toNat + s.cfg.srcBytes ≤ 2 ^ 64 →
      (∃ k, k < 16 ∧ s.cfg.inImage (s.cfg.posOf s.origin k) = true) → exec .gather s = .fault .busError) ∧
    ((∀ k, k < 16 → s.cfg.inImage (s.cfg.posOf s.origin k) = false) → ∃ t, exec .gather s = .next t) ∧
    (s.platform.outFails = true → s.alphaAddr + 8 ≤ 2 ^ 64 → exec .emitAlpha s = .fault .busError) ∧
    (s.platform.outFails = true → s.colorAddr + 8 ≤ 2 ^ 64 → exec .emitColor s = .fault .busError) ∧
    (s.platform.quantMute = true → exec .quantize s = .fault .quantizerSilent)

/-! ### The sequence of sub-blocks -/

/-- 41_tiler.md R135: sub-block `4 * (ty * TW + tx) + q` is sub-block `q` of tile `(tx, ty)`, with the inverse the rule gives, so
no two visited sub-blocks share an index. -/
def Obligations.SubBlockIndexInverse : Prop :=
  ∀ (c : Cfg) (tx ty q : Nat), tx < c.tilesWide → q < 4 →
    let n := 4 * (ty * c.tilesWide + tx) + q
    n % 4 = q ∧ n / 4 % c.tilesWide = tx ∧ n / 4 / c.tilesWide = ty ∧ c.originAt .image n = tileOrigin tx ty q

/-- 41_tiler.md R144: every image pixel is gathered by exactly one visited sub-block of an image encode, at one gather index: the
sub-block with corner `(4 * (posX div 4), 4 * ((H-1-posY) div 4))`, at `4 * ((H-1-posY) mod 4) + posX mod 4`. -/
def Obligations.EveryPixelGatheredOnce : Prop :=
  ∀ (c : Cfg) (posX posY : Nat), posX < c.width.toNat → posY < c.height.toNat →
    let r := c.height.toNat - 1 - posY
    ∃ n k, n < c.subBlocks .image ∧ k < 16 ∧
      c.posOf (c.originAt .image n) k = ((posX : Int), (posY : Int)) ∧
      c.originAt .image n = (((4 * (posX / 4) : Nat) : Int), ((4 * (r / 4) : Nat) : Int)) ∧
      k = 4 * (r % 4) + posX % 4 ∧ n / 4 = (r / 8) * c.tilesWide + posX / 8 ∧
      ∀ n' k', n' < c.subBlocks .image → k' < 16 → c.posOf (c.originAt .image n') k' = ((posX : Int), (posY : Int)) →
        n' = n ∧ k' = k

/-- 41_tiler.md R142: the bytes of a command are a function of the configuration registers, the mode and the bytes of the source
region alone. -/
def Obligations.OutputDependsOnSourceAlone : Prop :=
  ∀ (s s' : State), s.cfg = s'.cfg → s.cursor.mode = s'.cursor.mode →
    (∀ a, s.cfg.inSource a = true → s.mem.read a = s'.mem.read a) → ∀ j, s.outputByte j = s'.outputByte j

/-! ### The host's memory accesses -/

/-- 20_memory.md R74 and R75: a host read of memory returns the byte there; of an output byte while BUSY it returns the byte's
value before the command or the value the command writes there (`commandByte`, log 8), whatever the host has written; with a
host that kept its duties that value is the one the rules give. The read changes no byte and no register: only the turn is
taken, the answer seen, and the index of the next free value (log 12) may move. -/
def Obligations.HostReadOldOrNew : Prop :=
  ∀ (s : State) (a : BitVec 64) (rest : List Turn), s.agenda = .host (.memRead a) :: rest →
    ∃ (t : State) (v : Byte), step s = .next t ∧
      t = { s with agenda := rest, seen := .mem a v :: s.seen, race := { s.race with draws := t.race.draws } } ∧
      ((s.status.state ≠ .busy ∨ s.inOutput a.toNat = false) → v = s.mem.read a.toNat) ∧
      (s.status.state = .busy → s.inOutput a.toNat = true →
        v = s.race.memBefore.read a.toNat ∨ v = s.commandByte (a.toNat - s.cfg.outBase.toNat)) ∧
      (s.Inv → s.Right → s.status.state = .busy → s.Untouched → s.inOutput a.toNat = true →
        v = s.race.memBefore.read a.toNat ∨ v = s.outputByte (a.toNat - s.cfg.outBase.toNat))

/-- 20_memory.md R75: "the value the command writes there" is one value for the whole command: no step but a reset, and the first
host write to the source region (R76), changes it for any output byte, up to and with the step that ends in DONE. -/
def Obligations.CommandByteIsFixed : Prop :=
  ∀ s t : State, s.Inv → s.status.state = .busy → step s = .next t → (∀ rest, s.agenda ≠ .host .reset :: rest) →
    (∀ a v rest, s.agenda = .host (.memWrite a v) :: rest → s.cfg.inSource a.toNat = false ∨ s.race.srcTainted = true) →
    ∀ j, j < s.outLen.toNat → t.commandByte j = s.commandByte j

/-- 20_memory.md R75 and 41_tiler.md R136: the value the command writes at an output byte is the one that stands there once it is
written, unless the host wrote that byte too (R76); and with a host that kept its duties it is byte `j mod B` of the codes of
sub-block `j div B`. -/
def Obligations.CommandByteIsRight : Prop :=
  ∀ s : State, s.Inv → s.status.state = .busy → ∀ j, j < s.outLen.toNat →
    (j < s.emitted → s.cfg.outBase.toNat + j ∉ s.race.hostOut → s.mem.read (s.cfg.outBase.toNat + j) = s.commandByte j) ∧
    (s.Right → s.Untouched → s.commandByte j = s.outputByte j)

/-- 20_memory.md R76: a host write while not BUSY, or outside both regions, is an ordinary write; one to an output byte while
BUSY leaves that byte holding the host's value or the one that stood there; every other byte reads as before, and no register
of the block changes. -/
def Obligations.HostWriteEffect : Prop :=
  ∀ (s : State) (a : BitVec 64) (v : Byte) (rest : List Turn), s.mem.wf → s.agenda = .host (.memWrite a v) :: rest →
    ∃ t, step s = .next t ∧ t = { s with mem := t.mem, race := t.race, agenda := rest } ∧
      (∀ b, b ≠ a.toNat → t.mem.read b = s.mem.read b) ∧
      (t.mem.read a.toNat = v ∨
        (s.status.state = .busy ∧ s.inOutput a.toNat = true ∧ t.mem.read a.toNat = s.mem.read a.toNat)) ∧
      (s.status.state = .busy → s.cfg.inSource a.toNat = true → t.race.srcTainted = true) ∧
      (s.status.state = .busy → s.cfg.inSource a.toNat = false → s.inOutput a.toNat = true → a.toNat ∈ t.race.hostOut)

/-- 30_encoding.md R92: WAIT reads STATUS and ends at the first read whose STATE field matches; else it stays pending, and every
turn before its next poll is the sequencer's (log 5). -/
def Obligations.WaitPollsStatus : Prop :=
  ∀ (s : State) (targets : List RunState) (gaps : List Nat) (rest : List Turn),
    s.agenda = .host (.wait targets gaps) :: rest →
    ∃ t, step s = .next t ∧ t = { s with agenda := t.agenda, seen := .reg 4 s.status.word :: s.seen } ∧
      (s.status.state ∈ targets → t.agenda = rest) ∧
      (s.status.state ∉ targets →
        ∃ n gaps', t.agenda = List.replicate n Turn.sequencer ++ .host (.wait targets gaps') :: rest)

/-- 30_encoding.md R92 and 40_host_commands.md R100: a script is its lines' transactions in order, whatever the pace; and any
way the sequencer's turns fall among them, before each and between the reads of each WAIT, is the script at some pace. The
paces are the model's form of what the spec leaves open (log 5, log 27). -/
def Obligations.ScriptIsItsTransactions : Prop :=
  ∀ ls : List Line,
    (∀ paces, (script paces ls).filterMap Turn.transaction = ls.flatMap expandLine) ∧
    ∀ turns : List Turn, (∀ u ∈ turns, u = .sequencer ∨ u.transaction ≠ none) →
      turns.filterMap Turn.transaction = ls.flatMap expandLine →
      ∃ (paces : List Pace) (n : Nat), turns = script paces ls ++ List.replicate n .sequencer

/-! ### Whole-machine rules -/

/-- 10_state.md R23: "The transitions are exactly" the listed ones; "No other transition exists". -/
def Obligations.OnlyListedTransitions : Prop :=
  ∀ s t : State, step s = .next t →
    t.status.state = s.status.state ∨
    (s.status.state = .idle ∧ t.status.state = .busy) ∨ (s.status.state = .idle ∧ t.status.state = .error) ∨
    (s.status.state = .done ∧ t.status.state = .error) ∨ (s.status.state = .busy ∧ t.status.state = .done) ∨
    (s.status.state = .done ∧ t.status.state = .idle) ∨ (s.status.state = .error ∧ t.status.state = .idle) ∨
    (t.status.state = .idle ∧ ∃ rest, s.agenda = .host .reset :: rest)

/-- 60_exceptions.md R190: an error is raised only by a CMD write accepted while IDLE or DONE. -/
def Obligations.ErrorsOnlyFromCommandWrites : Prop :=
  ∀ s t : State, step s = .next t → t.status.state = .error → s.status.state ≠ .error →
    (s.status.state = .idle ∨ s.status.state = .done) ∧
    (∃ v rest, s.agenda = .host (.port (.write 32 0 v)) :: rest) ∧
    (∀ a, t.mem.read a = s.mem.read a) ∧ t.cfg = s.cfg

/-- 10_state.md R24: IGN goes from 0 to 1 only when a host write is ignored: any CMD or configuration write while BUSY, or a CMD
write other than NOP and ACK_ERROR while ERROR. -/
def Obligations.IgnSetOnlyByIgnoredWrite : Prop :=
  ∀ s t : State, step s = .next t → s.status.ign = false → t.status.ign = true →
    ∃ (offset : Nat) (v : Word) (rest : List Turn), s.agenda = .host (.port (.write 32 offset v)) :: rest ∧
      ((s.status.state = .busy ∧ (offset = 0 ∨ ∃ r : Reg, r.access = .readWrite ∧ r.offset = offset)) ∨
        (s.status.state = .error ∧ offset = 0 ∧ v ≠ 0x00000000 ∧ v ≠ 0x00000004))

/-- 30_encoding.md R83 and 40_host_commands.md R104: while BUSY no step but reset changes a configuration register or OUT_LEN, so
every operand of a running command is constant. -/
def Obligations.RunningOperandsConstant : Prop :=
  ∀ s t : State, s.status.state = .busy → step s = .next t → (∀ rest, s.agenda ≠ .host .reset :: rest) →
    t.cfg = s.cfg ∧ t.outLen = s.outLen ∧ t.cursor.mode = s.cursor.mode

/-- 20_memory.md R60: the block writes only the output region: a step that is not a host write changes no byte outside it. -/
def Obligations.BlockWritesOnlyOutput : Prop :=
  ∀ s t : State, s.Inv → step s = .next t → (∀ a v rest, s.agenda ≠ .host (.memWrite a v) :: rest) →
    (∀ a, s.inOutput a = false → t.mem.read a = s.mem.read a) ∧
    (s.status.state ≠ .busy → ∀ a, t.mem.read a = s.mem.read a)

/-- The invariant holds at reset, and so does `Right`. It rests on the reset values of log 1 and log 2 (DESIGN CHOICE) for the
canonical form of memory and for wpos. -/
def Obligations.InvariantAtReset : Prop := State.reset.Inv ∧ State.reset.Right

/-- Every step from a state with the invariant gives a state with it: the canonical form of memory, PHASE = 0 exactly when not
BUSY (10_state.md R25), ERR_CODE non-zero exactly in ERROR (R26), wpos in {0, 8} (R39), the bounds of OUT_LEN and BLOCKS_DONE (R35,
R38), and while BUSY what the start checks established, the cursor inside the grid with BLOCKS_DONE the sub-block index (R36,
41_tiler.md R135), the phases of 42_block_encoder.md R154, and the model's own record of the bytes written (log 8). -/
def Obligations.StepKeepsInvariant : Prop := ∀ s t : State, s.Inv → step s = .next t → t.Inv

/-- A step from a state with the invariant is never stopped by an address outside the space or by a phase that names no
micro-operation (40_host_commands.md R113, 30_encoding.md R85); with a platform that answers it is never stopped by a fault. -/
def Obligations.InvariantRulesOutFaults : Prop :=
  ∀ s : State, s.Inv →
    step s ≠ .fault .addressOutOfSpace ∧ step s ≠ .fault .noMicroOp ∧ (s.Answering → ∀ f, step s ≠ .fault f)

/-- Every step keeps the datapath and the output region of a running command right: pix, acc and ccode hold what the sub-block's
rules say, every byte already written is the one the command writes there, and every other output byte is as it was (20_memory.md
R73, 41_tiler.md R136, R140, R142). -/
def Obligations.StepKeepsOutputRight : Prop := ∀ s t : State, s.Inv → s.Right → step s = .next t → t.Right

/-- 70_reset_and_hazards.md R224 and 41_tiler.md R136: when a step ends a command in DONE, every byte of the output region is the
one the rules give: byte `j mod B` of the codes of sub-block `j div B`. -/
def Obligations.DoneMeansOutputComplete : Prop :=
  ∀ s t : State, s.Inv → s.Right → s.Untouched → s.status.state = .busy → step s = .next t → t.status.state = .done →
    t.blocksDone.toNat = t.cfg.subBlocks t.cursor.mode ∧
    t.outLen.toNat = t.blocksDone.toNat * t.cfg.blockBytes ∧
    ∀ j, j < t.outLen.toNat → t.mem.read (t.cfg.outBase.toNat + j) = t.outputByte j

/-- 41_tiler.md R141 and R142: from a CMD write that starts an encode, with no other turn pending and a platform that answers,
the command takes exactly `4 * TW * TH * (HAS_ALPHA ? 6 : 4)` sequencer steps (6 or 4 for a block), is BUSY until the last of
them, and ends in DONE with every output byte as the rules give it and every other byte of memory as before. -/
def Obligations.EncodeRunsToCompletion : Prop :=
  ∀ (s u : State) (w : Word), s.Inv → s.Answering → s.status.state ≠ .busy →
    s.agenda = [.host (.port (.write 32 0 w))] → step s = .next u → u.status.state = .busy →
    let steps := u.cfg.subBlocks u.cursor.mode * (if u.cfg.config.getLsbD 0 then 6 else 4)
    (∀ k, k < steps → ∃ v, Host.Core.run core (1 + k) s = .next v ∧ v.status.state = .busy) ∧
    ∃ t, Host.Core.run core (1 + steps) s = .next t ∧ t.status.state = .done ∧ t.cfg = s.cfg ∧
      t.outLen.toNat = s.cfg.reqLen u.cursor.mode ∧ t.blocksDone.toNat = s.cfg.subBlocks u.cursor.mode ∧
      (∀ j, j < t.outLen.toNat → t.mem.read (s.cfg.outBase.toNat + j) = u.outputByte j) ∧
      (∀ a, t.inOutput a = false → t.mem.read a = s.mem.read a)
end

