-- ==== Sys2Proof/Laws/Memory.lean ====
section
/-! SUPPORT. Laws of host memory: reads after writes, the canonical form, and equality of equal memories. -/

namespace Sys2Proof.Machine

@[simp] theorem Memory.read_nil (a : Nat) : Memory.read [] a = Memory.unlisted := rfl

/-- An address below every listed one is not listed. -/
theorem Memory.read_below (m : Memory) (k a : Nat) (h : ∀ c ∈ m, k < c.1) (ha : a ≤ k) :
    Memory.read m a = Memory.unlisted := by
  induction m with
  | nil => rfl
  | cons c m ih =>
    obtain ⟨x, y⟩ := c
    have hx : k < x := h (x, y) (by simp)
    have : x ≠ a := by omega
    simp only [Memory.read, this, if_false]
    exact ih fun c hc => h c (by simp [hc])

theorem Memory.read_write (m : Memory) (a b : Nat) (v : Byte) (h : m.Pairwise (fun c d => c.1 < d.1)) :
    (m.write a v).read b = if a = b then v else m.read b := by
  induction m with
  | nil => simp only [Memory.write]; split <;> simp [Memory.read, *]
  | cons c m ih =>
    obtain ⟨k, w⟩ := c
    rw [List.pairwise_cons] at h
    have absent : ∀ n, n ≤ k → Memory.read m n = Memory.unlisted := fun n hn => Memory.read_below m k n h.1 hn
    simp only [Memory.write]
    split
    next hk =>
      simp only [Memory.read, ih h.2]
      by_cases hkb : k = b
      · simp [hkb, show a ≠ b by omega]
      · simp [hkb]
    next hk =>
      split
      next hka =>
        subst hka
        split
        next hv =>
          by_cases hb : k = b
          · simp [hb, hv, absent b (by omega)]
          · simp [Memory.read, hb]
        next => by_cases hb : k = b <;> simp [Memory.read, hb]
      next hka =>
        split
        next hv =>
          by_cases hb : a = b
          · subst hb; simp [Memory.read, hka, hv, absent a (by omega)]
          · simp [hb]
        next => by_cases hb : a = b <;> simp [Memory.read, hb]

theorem Memory.read_write_same (m : Memory) (a : Nat) (v : Byte) (h : m.wf) : (m.write a v).read a = v := by
  simp [Memory.read_write m a a v h.1]

theorem Memory.read_write_other (m : Memory) (a b : Nat) (v : Byte) (h : m.wf) (hab : a ≠ b) :
    (m.write a v).read b = m.read b := by
  simp [Memory.read_write m a b v h.1, hab]

theorem Memory.mem_write (m : Memory) (a : Nat) (v : Byte) (c : Host.Cell) (h : c ∈ m.write a v) :
    c ∈ m ∨ (c = (a, v) ∧ v ≠ Memory.unlisted) := by
  induction m with
  | nil => simp only [Memory.write] at h; split at h <;> simp_all
  | cons d m ih =>
    obtain ⟨k, w⟩ := d
    simp only [Memory.write] at h
    split at h
    · rcases List.mem_cons.1 h with h | h
      · simp [h]
      · rcases ih h with h | h <;> simp [h]
    · split at h
      · split at h
        · simp [h]
        · rcases List.mem_cons.1 h with h | h
          · exact .inr ⟨h, ‹_›⟩
          · simp [h]
      · split at h
        · exact .inl h
        · rcases List.mem_cons.1 h with h | h
          · exact .inr ⟨h, ‹_›⟩
          · exact .inl h

/-- Every byte write keeps the canonical form. -/
theorem Memory.write_wf (m : Memory) (a : Nat) (v : Byte) (h : m.wf) (ha : a < 2 ^ 64) : (m.write a v).wf := by
  refine ⟨?_, fun c hc => ?_⟩
  · have sorted := h.1
    clear h
    induction m with
    | nil => simp only [Memory.write]; split <;> simp
    | cons d m ih =>
      obtain ⟨k, w⟩ := d
      rw [List.pairwise_cons] at sorted
      simp only [Memory.write]
      split
      next hk =>
        rw [List.pairwise_cons]
        refine ⟨fun c hc => ?_, ih sorted.2⟩
        rcases Memory.mem_write m a v c hc with hc | ⟨hc, -⟩
        · exact sorted.1 c hc
        · rw [hc]; exact hk
      next hk =>
        split
        next hka =>
          split
          · exact sorted.2
          · rw [List.pairwise_cons]
            exact ⟨fun c hc => by have := sorted.1 c hc; simp only at this ⊢; omega, sorted.2⟩
        next hka =>
          split
          · exact List.pairwise_cons.2 sorted
          · rw [List.pairwise_cons]
            refine ⟨fun c hc => ?_, List.pairwise_cons.2 sorted⟩
            rcases List.mem_cons.1 hc with hc | hc
            · subst hc; simp only; omega
            · have := sorted.1 c hc; simp only at this ⊢; omega
  · rcases Memory.mem_write m a v c hc with hc | ⟨hc, hv⟩
    · exact h.2 c hc
    · subst hc; exact ⟨hv, ha⟩

theorem Memory.writeBytes_wf (m : Memory) (a : Nat) (bs : List Byte) (h : m.wf) (ha : a + bs.length ≤ 2 ^ 64) :
    (m.writeBytes a bs).wf := by
  induction bs generalizing m a with
  | nil => exact h
  | cons b bs ih =>
    simp only [List.length_cons] at ha
    exact ih (m.write a b) (a + 1) (Memory.write_wf m a b h (by omega)) (by omega)

/-- What a wide write leaves: its bytes in order, everything else as it was. -/
theorem Memory.read_writeBytes (m : Memory) (a : Nat) (bs : List Byte) (h : m.wf) (ha : a + bs.length ≤ 2 ^ 64) (b : Nat) :
    (m.writeBytes a bs).read b = if a ≤ b ∧ b < a + bs.length then bs.getD (b - a) 0 else m.read b := by
  induction bs generalizing m a with
  | nil => simp [Memory.writeBytes]
  | cons x bs ih =>
    simp only [List.length_cons] at ha ⊢
    have hw := Memory.write_wf m a x h (by omega)
    rw [Memory.writeBytes, ih (m.write a x) (a + 1) hw (by omega)]
    by_cases hin : a + 1 ≤ b ∧ b < a + 1 + bs.length
    · have e : b - a = (b - (a + 1)) + 1 := by omega
      rw [if_pos hin, if_pos (by omega), e, List.getD_cons_succ]
    · rw [if_neg hin]
      by_cases hab : a = b
      · subst hab; simp [Memory.read_write_same m a x h]
      · rw [Memory.read_write_other m a b x h hab, if_neg (by omega)]

theorem Memory.read_writeBytes_outside (m : Memory) (a : Nat) (bs : List Byte) (h : m.wf) (ha : a + bs.length ≤ 2 ^ 64)
    (b : Nat) (hb : b < a ∨ a + bs.length ≤ b) : (m.writeBytes a bs).read b = m.read b := by
  rw [Memory.read_writeBytes m a bs h ha, if_neg (by omega)]

/-- A canonical memory is determined by its bytes: equal memories are equal data. -/
theorem Memory.ext_of_wf (m n : Memory) (hm : m.wf) (hn : n.wf) (h : ∀ a, m.read a = n.read a) : m = n := by
  induction m generalizing n with
  | nil =>
    cases n with
    | nil => rfl
    | cons d n =>
      have e := h d.1
      simp only [Memory.read, if_true] at e
      exact absurd e.symm (hn.2 d (by simp)).1
  | cons c m ih =>
    obtain ⟨sc, tc⟩ := List.pairwise_cons.1 hm.1
    cases n with
    | nil =>
      have e := h c.1
      simp only [Memory.read, if_true] at e
      exact absurd e (hm.2 c (by simp)).1
    | cons d n =>
      obtain ⟨sd, td⟩ := List.pairwise_cons.1 hn.1
      obtain ⟨k, v⟩ := c
      obtain ⟨l, w⟩ := d
      have hv := (hm.2 (k, v) (by simp)).1
      have hw := (hn.2 (l, w) (by simp)).1
      have hkl : k = l := by
        rcases Nat.lt_trichotomy k l with hlt | heq | hgt
        · have e := h k
          rw [Memory.read_below ((l, w) :: n) k k (fun c hc => by
            rcases List.mem_cons.1 hc with hc | hc
            · subst hc; exact hlt
            · have := sd c hc; simp only at this; omega) (Nat.le_refl k)] at e
          simp only [Memory.read, if_true] at e
          exact absurd e hv
        · exact heq
        · have e := h l
          rw [Memory.read_below ((k, v) :: m) l l (fun c hc => by
            rcases List.mem_cons.1 hc with hc | hc
            · subst hc; exact hgt
            · have := sc c hc; simp only at this; omega) (Nat.le_refl l)] at e
          simp only [Memory.read, if_true] at e
          exact absurd e.symm hw
      subst hkl
      have e := h k
      simp only [Memory.read, if_true] at e
      subst e
      congr 1
      refine ih n ⟨tc, fun c hc => hm.2 c (by simp [hc])⟩ ⟨td, fun c hc => hn.2 c (by simp [hc])⟩ fun a => ?_
      have e := h a
      by_cases ha : k = a
      · subst ha; rw [Memory.read_below m k k sc (Nat.le_refl k), Memory.read_below n k k sd (Nat.le_refl k)]
      · simpa [Memory.read, ha] using e

end Sys2Proof.Machine
end

