-- ==== Sys2Proof/Laws/Operands.lean ====
section
/-! SUPPORT. What the operand helpers give: the halves of a 64-bit register, a gathered pixel, a nibble of the alpha code, a
byte of a settled write. -/

namespace Sys2Proof.Machine

/-! ### LO and HI halves -/

theorem getLsbD_append_32 (hi lo : Word) (i : Nat) (h : i < 32) :
    (hi ++ lo).getLsbD i = lo.getLsbD i ∧ (hi ++ lo).getLsbD (32 + i) = hi.getLsbD i := by
  constructor
  · rw [BitVec.getLsbD_append, if_pos h]
  · rw [BitVec.getLsbD_append, if_neg (by omega), Nat.add_sub_cancel_left]

@[simp] theorem loHalf_append (hi lo : Word) : loHalf (hi ++ lo) = lo := by
  apply BitVec.eq_of_getLsbD_eq
  intro i h
  simpa [loHalf, BitVec.getLsbD_extractLsb', h] using (getLsbD_append_32 hi lo i h).1

@[simp] theorem hiHalf_append (hi lo : Word) : hiHalf (hi ++ lo) = hi := by
  apply BitVec.eq_of_getLsbD_eq
  intro i h
  simpa [hiHalf, BitVec.getLsbD_extractLsb', h] using (getLsbD_append_32 hi lo i h).2

@[simp] theorem loHalf_withLo (x : BitVec 64) (v : Word) : loHalf (withLo x v) = v := loHalf_append _ _

@[simp] theorem hiHalf_withLo (x : BitVec 64) (v : Word) : hiHalf (withLo x v) = hiHalf x := hiHalf_append _ _

@[simp] theorem loHalf_withHi (x : BitVec 64) (v : Word) : loHalf (withHi x v) = loHalf x := loHalf_append _ _

@[simp] theorem hiHalf_withHi (x : BitVec 64) (v : Word) : hiHalf (withHi x v) = v := hiHalf_append _ _

/-- The two words of a value, written low then high, leave the value (30_encoding.md R91). -/
theorem withHi_withLo (x v : BitVec 64) : withHi (withLo x (loHalf v)) (hiHalf v) = v := by
  unfold withHi
  rw [loHalf_withLo]
  apply BitVec.eq_of_getLsbD_eq
  intro i hi
  rw [BitVec.getLsbD_append]
  split
  · simp [loHalf, *]
  · simp [hiHalf, show i - 32 < 32 by omega, show 32 + (i - 32) = i by omega]

/-! ### Pixels -/

theorem Memory.readPixel_eq (m : Memory) (a : Nat) :
    m.readPixel a = m.read (a + 3) ++ m.read (a + 2) ++ m.read (a + 1) ++ m.read a := rfl

/-- Entry `4*y + x` of the gather buffer is the fetch at `(bx + x, H - 1 - (by + y))`. -/
theorem gatherAt_getElem (c : Cfg) (m : Memory) (o : Int × Int) (k : Nat) (hk : k < 16) :
    (gatherAt c m o)[k] = fetch c m (c.posOf o k) := by
  simp [gatherAt]

theorem gatherDrawn_getElem (c : Cfg) (n : Nat) (o : Int × Int) (k : Nat) (hk : k < 16) :
    (gatherDrawn c n o)[k] = if c.inImage (c.posOf o k) then Config.drawPixel (n + k) else 0 := by
  simp [gatherDrawn]

theorem Cfg.inImage_iff (c : Cfg) (p : Int × Int) :
    c.inImage p = true ↔ 0 ≤ p.1 ∧ p.1 < c.w ∧ 0 ≤ p.2 ∧ p.2 < c.h := by
  simp [Cfg.inImage, and_assoc]

/-! ### The alpha code -/

/-- One nibble, bit by bit, of what the packing loop leaves. -/
theorem alphaCode_getLsbD (pix : Vector Word 16) (j : Nat) :
    (alphaCode pix).getLsbD j =
      (decide (j < 64) &&
        (List.finRange 16).any fun m =>
          decide (4 * m.val ≤ j ∧ j < 4 * m.val + 4) && (pix[alphaIndex m]).getLsbD (28 + (j - 4 * m.val))) := by
  have key : ∀ (l : List (Fin 16)) (a : Code),
      (l.foldl (fun a64 n => a64 ||| ((alphaNibble (pix[alphaIndex n])).setWidth 64 <<< (4 * n.val))) a).getLsbD j =
        (a.getLsbD j ||
          (decide (j < 64) &&
            l.any fun m =>
              decide (4 * m.val ≤ j ∧ j < 4 * m.val + 4) && (pix[alphaIndex m]).getLsbD (28 + (j - 4 * m.val)))) := by
    intro l
    induction l with
    | nil => intro a; simp
    | cons m l ih =>
      intro a
      rw [List.foldl_cons, ih]
      have hm := m.isLt
      have hbit : ((alphaNibble (pix[alphaIndex m])).setWidth 64 <<< (4 * m.val)).getLsbD j =
          (decide (j < 64) && (decide (4 * m.val ≤ j ∧ j < 4 * m.val + 4) &&
            (pix[alphaIndex m]).getLsbD (28 + (j - 4 * m.val)))) := by
        simp only [alphaNibble, BitVec.getLsbD_shiftLeft, BitVec.getLsbD_setWidth, BitVec.getLsbD_ushiftRight,
          BitVec.getLsbD_extractLsb']
        by_cases h1 : j < 64
        · by_cases h2 : 4 * m.val ≤ j
          · by_cases h3 : j < 4 * m.val + 4
            · simp [h1, h2, h3, show ¬j < 4 * m.val by omega, show j - 4 * m.val < 64 by omega,
                show 4 + (j - 4 * m.val) < 8 by omega, show 24 + (4 + (j - 4 * m.val)) = 28 + (j - 4 * m.val) by omega]
            · simp [h3, show ¬4 + (j - 4 * m.val) < 8 by omega]
          · simp [h2, show j < 4 * m.val by omega]
        · simp [h1]
      rw [BitVec.getLsbD_or, hbit, List.any_cons, Bool.and_or_distrib_left, Bool.or_assoc]
  rw [alphaCode, key]
  simp

/-- 43_alpha_packer.md R171 to R173: nibble `n` is the high half of the alpha byte of its gather entry. -/
theorem alphaCode_nibble (pix : Vector Word 16) (n : Fin 16) :
    (alphaCode pix).extractLsb' (4 * n.val) 4 = (pix[alphaIndex n]).extractLsb' 28 4 := by
  apply BitVec.eq_of_getLsbD_eq
  intro i hi
  have hn := n.isLt
  rw [BitVec.getLsbD_extractLsb', BitVec.getLsbD_extractLsb', alphaCode_getLsbD]
  have key : (List.finRange 16).any (fun m =>
      decide (4 * m.val ≤ 4 * n.val + i ∧ 4 * n.val + i < 4 * m.val + 4) &&
        (pix[alphaIndex m]).getLsbD (28 + (4 * n.val + i - 4 * m.val))) = (pix[alphaIndex n]).getLsbD (28 + i) := by
    rw [Bool.eq_iff_iff, List.any_eq_true]
    constructor
    · rintro ⟨m, -, h⟩
      rw [Bool.and_eq_true, decide_eq_true_eq] at h
      obtain ⟨⟨h1, h2⟩, h3⟩ := h
      have e : m = n := Fin.ext (by omega)
      subst e
      rwa [Nat.add_sub_cancel_left] at h3
    · intro h
      refine ⟨n, List.mem_finRange n, ?_⟩
      rw [Bool.and_eq_true, decide_eq_true_eq, Nat.add_sub_cancel_left]
      exact ⟨by omega, h⟩
  rw [key, decide_eq_true (show 4 * n.val + i < 64 by omega)]
  simp

/-! ### Settled writes -/

/-- A byte of a write of the block: its own, or the one that stands there where the host also wrote (20_memory.md R76). -/
theorem State.settled_getD (s : State) (n a : Nat) (bs : List Byte) (i : Nat) (h : i < bs.length) :
    (s.settled n a bs).getD i 0 = bs.getD i 0 ∨
      (a + i ∈ s.race.hostOut ∧ (s.settled n a bs).getD i 0 = s.mem.read (a + i)) := by
  induction bs generalizing n a i with
  | nil => exact absurd h (Nat.not_lt_zero i)
  | cons b bs ih =>
    cases i with
    | zero =>
      simp only [State.settled, List.getD_cons_zero]
      split
      · next hc => exact .inr ⟨by simpa using (Bool.and_eq_true_iff.1 hc).1, rfl⟩
      · exact .inl rfl
    | succ i =>
      have := ih (n + 1) (a + 1) i (by simpa using h)
      rwa [Nat.add_right_comm a 1 i] at this

end Sys2Proof.Machine
end

