-- ==== Sys2Proof/Laws/State.lean ====
section
/-! SUPPORT. One lemma for each field of State after each named update, all by definition. -/

namespace Sys2Proof.Machine

/-! ### State.setIgn -/

@[simp] theorem State.setIgn_status_state (b : Bool) (s : State) :
    (State.setIgn b s).status.state = s.status.state := rfl
@[simp] theorem State.setIgn_status_ign (b : Bool) (s : State) :
    (State.setIgn b s).status.ign = b := rfl
@[simp] theorem State.setIgn_status_phase (b : Bool) (s : State) :
    (State.setIgn b s).status.phase = s.status.phase := rfl
@[simp] theorem State.setIgn_status_errCode (b : Bool) (s : State) :
    (State.setIgn b s).status.errCode = s.status.errCode := rfl
@[simp] theorem State.setIgn_cfg (b : Bool) (s : State) :
    (State.setIgn b s).cfg = s.cfg := rfl
@[simp] theorem State.setIgn_outLen (b : Bool) (s : State) :
    (State.setIgn b s).outLen = s.outLen := rfl
@[simp] theorem State.setIgn_blocksDone (b : Bool) (s : State) :
    (State.setIgn b s).blocksDone = s.blocksDone := rfl
@[simp] theorem State.setIgn_cursor (b : Bool) (s : State) :
    (State.setIgn b s).cursor = s.cursor := rfl
@[simp] theorem State.setIgn_pix (b : Bool) (s : State) :
    (State.setIgn b s).pix = s.pix := rfl
@[simp] theorem State.setIgn_acc (b : Bool) (s : State) :
    (State.setIgn b s).acc = s.acc := rfl
@[simp] theorem State.setIgn_ccode (b : Bool) (s : State) :
    (State.setIgn b s).ccode = s.ccode := rfl
@[simp] theorem State.setIgn_mem (b : Bool) (s : State) :
    (State.setIgn b s).mem = s.mem := rfl
@[simp] theorem State.setIgn_race (b : Bool) (s : State) :
    (State.setIgn b s).race = s.race := rfl
@[simp] theorem State.setIgn_platform (b : Bool) (s : State) :
    (State.setIgn b s).platform = s.platform := rfl
@[simp] theorem State.setIgn_agenda (b : Bool) (s : State) :
    (State.setIgn b s).agenda = s.agenda := rfl
@[simp] theorem State.setIgn_seen (b : Bool) (s : State) :
    (State.setIgn b s).seen = s.seen := rfl

/-! ### State.setPhase -/

@[simp] theorem State.setPhase_status_state (p : Phase) (s : State) :
    (State.setPhase p s).status.state = s.status.state := rfl
@[simp] theorem State.setPhase_status_ign (p : Phase) (s : State) :
    (State.setPhase p s).status.ign = s.status.ign := rfl
@[simp] theorem State.setPhase_status_phase (p : Phase) (s : State) :
    (State.setPhase p s).status.phase = p := rfl
@[simp] theorem State.setPhase_status_errCode (p : Phase) (s : State) :
    (State.setPhase p s).status.errCode = s.status.errCode := rfl
@[simp] theorem State.setPhase_cfg (p : Phase) (s : State) :
    (State.setPhase p s).cfg = s.cfg := rfl
@[simp] theorem State.setPhase_outLen (p : Phase) (s : State) :
    (State.setPhase p s).outLen = s.outLen := rfl
@[simp] theorem State.setPhase_blocksDone (p : Phase) (s : State) :
    (State.setPhase p s).blocksDone = s.blocksDone := rfl
@[simp] theorem State.setPhase_cursor (p : Phase) (s : State) :
    (State.setPhase p s).cursor = s.cursor := rfl
@[simp] theorem State.setPhase_pix (p : Phase) (s : State) :
    (State.setPhase p s).pix = s.pix := rfl
@[simp] theorem State.setPhase_acc (p : Phase) (s : State) :
    (State.setPhase p s).acc = s.acc := rfl
@[simp] theorem State.setPhase_ccode (p : Phase) (s : State) :
    (State.setPhase p s).ccode = s.ccode := rfl
@[simp] theorem State.setPhase_mem (p : Phase) (s : State) :
    (State.setPhase p s).mem = s.mem := rfl
@[simp] theorem State.setPhase_race (p : Phase) (s : State) :
    (State.setPhase p s).race = s.race := rfl
@[simp] theorem State.setPhase_platform (p : Phase) (s : State) :
    (State.setPhase p s).platform = s.platform := rfl
@[simp] theorem State.setPhase_agenda (p : Phase) (s : State) :
    (State.setPhase p s).agenda = s.agenda := rfl
@[simp] theorem State.setPhase_seen (p : Phase) (s : State) :
    (State.setPhase p s).seen = s.seen := rfl

/-! ### State.setRun -/

@[simp] theorem State.setRun_status_state (r : RunState) (s : State) :
    (State.setRun r s).status.state = r := rfl
@[simp] theorem State.setRun_status_ign (r : RunState) (s : State) :
    (State.setRun r s).status.ign = s.status.ign := rfl
@[simp] theorem State.setRun_status_phase (r : RunState) (s : State) :
    (State.setRun r s).status.phase = s.status.phase := rfl
@[simp] theorem State.setRun_status_errCode (r : RunState) (s : State) :
    (State.setRun r s).status.errCode = s.status.errCode := rfl
@[simp] theorem State.setRun_cfg (r : RunState) (s : State) :
    (State.setRun r s).cfg = s.cfg := rfl
@[simp] theorem State.setRun_outLen (r : RunState) (s : State) :
    (State.setRun r s).outLen = s.outLen := rfl
@[simp] theorem State.setRun_blocksDone (r : RunState) (s : State) :
    (State.setRun r s).blocksDone = s.blocksDone := rfl
@[simp] theorem State.setRun_cursor (r : RunState) (s : State) :
    (State.setRun r s).cursor = s.cursor := rfl
@[simp] theorem State.setRun_pix (r : RunState) (s : State) :
    (State.setRun r s).pix = s.pix := rfl
@[simp] theorem State.setRun_acc (r : RunState) (s : State) :
    (State.setRun r s).acc = s.acc := rfl
@[simp] theorem State.setRun_ccode (r : RunState) (s : State) :
    (State.setRun r s).ccode = s.ccode := rfl
@[simp] theorem State.setRun_mem (r : RunState) (s : State) :
    (State.setRun r s).mem = s.mem := rfl
@[simp] theorem State.setRun_race (r : RunState) (s : State) :
    (State.setRun r s).race = s.race := rfl
@[simp] theorem State.setRun_platform (r : RunState) (s : State) :
    (State.setRun r s).platform = s.platform := rfl
@[simp] theorem State.setRun_agenda (r : RunState) (s : State) :
    (State.setRun r s).agenda = s.agenda := rfl
@[simp] theorem State.setRun_seen (r : RunState) (s : State) :
    (State.setRun r s).seen = s.seen := rfl

/-! ### State.raiseError -/

@[simp] theorem State.raiseError_status_state (c : ErrCode) (s : State) :
    (State.raiseError c s).status.state = .error := rfl
@[simp] theorem State.raiseError_status_ign (c : ErrCode) (s : State) :
    (State.raiseError c s).status.ign = s.status.ign := rfl
@[simp] theorem State.raiseError_status_phase (c : ErrCode) (s : State) :
    (State.raiseError c s).status.phase = s.status.phase := rfl
@[simp] theorem State.raiseError_status_errCode (c : ErrCode) (s : State) :
    (State.raiseError c s).status.errCode = c := rfl
@[simp] theorem State.raiseError_cfg (c : ErrCode) (s : State) :
    (State.raiseError c s).cfg = s.cfg := rfl
@[simp] theorem State.raiseError_outLen (c : ErrCode) (s : State) :
    (State.raiseError c s).outLen = s.outLen := rfl
@[simp] theorem State.raiseError_blocksDone (c : ErrCode) (s : State) :
    (State.raiseError c s).blocksDone = s.blocksDone := rfl
@[simp] theorem State.raiseError_cursor (c : ErrCode) (s : State) :
    (State.raiseError c s).cursor = s.cursor := rfl
@[simp] theorem State.raiseError_pix (c : ErrCode) (s : State) :
    (State.raiseError c s).pix = s.pix := rfl
@[simp] theorem State.raiseError_acc (c : ErrCode) (s : State) :
    (State.raiseError c s).acc = s.acc := rfl
@[simp] theorem State.raiseError_ccode (c : ErrCode) (s : State) :
    (State.raiseError c s).ccode = s.ccode := rfl
@[simp] theorem State.raiseError_mem (c : ErrCode) (s : State) :
    (State.raiseError c s).mem = s.mem := rfl
@[simp] theorem State.raiseError_race (c : ErrCode) (s : State) :
    (State.raiseError c s).race = s.race := rfl
@[simp] theorem State.raiseError_platform (c : ErrCode) (s : State) :
    (State.raiseError c s).platform = s.platform := rfl
@[simp] theorem State.raiseError_agenda (c : ErrCode) (s : State) :
    (State.raiseError c s).agenda = s.agenda := rfl
@[simp] theorem State.raiseError_seen (c : ErrCode) (s : State) :
    (State.raiseError c s).seen = s.seen := rfl

/-! ### State.errorReturn -/

@[simp] theorem State.errorReturn_status_state (s : State) :
    (State.errorReturn s).status.state = .idle := rfl
@[simp] theorem State.errorReturn_status_ign (s : State) :
    (State.errorReturn s).status.ign = false := rfl
@[simp] theorem State.errorReturn_status_phase (s : State) :
    (State.errorReturn s).status.phase = s.status.phase := rfl
@[simp] theorem State.errorReturn_status_errCode (s : State) :
    (State.errorReturn s).status.errCode = .none := rfl
@[simp] theorem State.errorReturn_cfg (s : State) :
    (State.errorReturn s).cfg = s.cfg := rfl
@[simp] theorem State.errorReturn_outLen (s : State) :
    (State.errorReturn s).outLen = s.outLen := rfl
@[simp] theorem State.errorReturn_blocksDone (s : State) :
    (State.errorReturn s).blocksDone = s.blocksDone := rfl
@[simp] theorem State.errorReturn_cursor (s : State) :
    (State.errorReturn s).cursor = s.cursor := rfl
@[simp] theorem State.errorReturn_pix (s : State) :
    (State.errorReturn s).pix = s.pix := rfl
@[simp] theorem State.errorReturn_acc (s : State) :
    (State.errorReturn s).acc = s.acc := rfl
@[simp] theorem State.errorReturn_ccode (s : State) :
    (State.errorReturn s).ccode = s.ccode := rfl
@[simp] theorem State.errorReturn_mem (s : State) :
    (State.errorReturn s).mem = s.mem := rfl
@[simp] theorem State.errorReturn_race (s : State) :
    (State.errorReturn s).race = s.race := rfl
@[simp] theorem State.errorReturn_platform (s : State) :
    (State.errorReturn s).platform = s.platform := rfl
@[simp] theorem State.errorReturn_agenda (s : State) :
    (State.errorReturn s).agenda = s.agenda := rfl
@[simp] theorem State.errorReturn_seen (s : State) :
    (State.errorReturn s).seen = s.seen := rfl

/-! ### State.init -/

@[simp] theorem State.init_status_state (m : Mode) (s : State) :
    (State.init m s).status.state = .busy := rfl
@[simp] theorem State.init_status_ign (m : Mode) (s : State) :
    (State.init m s).status.ign = s.status.ign := rfl
@[simp] theorem State.init_status_phase (m : Mode) (s : State) :
    (State.init m s).status.phase = .gather := rfl
@[simp] theorem State.init_status_errCode (m : Mode) (s : State) :
    (State.init m s).status.errCode = s.status.errCode := rfl
@[simp] theorem State.init_cfg (m : Mode) (s : State) :
    (State.init m s).cfg = s.cfg := rfl
@[simp] theorem State.init_outLen (m : Mode) (s : State) :
    (State.init m s).outLen = s.outLen := rfl
@[simp] theorem State.init_blocksDone (m : Mode) (s : State) :
    (State.init m s).blocksDone = 0 := rfl
@[simp] theorem State.init_cursor (m : Mode) (s : State) :
    (State.init m s).cursor = { mode := m, tx := 0, ty := 0, q := 0, wpos := 0 } := rfl
@[simp] theorem State.init_pix (m : Mode) (s : State) :
    (State.init m s).pix = s.pix := rfl
@[simp] theorem State.init_acc (m : Mode) (s : State) :
    (State.init m s).acc = s.acc := rfl
@[simp] theorem State.init_ccode (m : Mode) (s : State) :
    (State.init m s).ccode = s.ccode := rfl
@[simp] theorem State.init_mem (m : Mode) (s : State) :
    (State.init m s).mem = s.mem := rfl
@[simp] theorem State.init_race (m : Mode) (s : State) :
    (State.init m s).race = { s.race with memBefore := s.mem, srcTainted := false, hostOut := [], blockOut := [] } := rfl
@[simp] theorem State.init_platform (m : Mode) (s : State) :
    (State.init m s).platform = s.platform := rfl
@[simp] theorem State.init_agenda (m : Mode) (s : State) :
    (State.init m s).agenda = s.agenda := rfl
@[simp] theorem State.init_seen (m : Mode) (s : State) :
    (State.init m s).seen = s.seen := rfl

/-! ### State.portRead -/

@[simp] theorem State.portRead_status (o : Nat) (s : State) :
    (State.portRead o s).status = s.status := rfl
@[simp] theorem State.portRead_cfg (o : Nat) (s : State) :
    (State.portRead o s).cfg = s.cfg := rfl
@[simp] theorem State.portRead_outLen (o : Nat) (s : State) :
    (State.portRead o s).outLen = s.outLen := rfl
@[simp] theorem State.portRead_blocksDone (o : Nat) (s : State) :
    (State.portRead o s).blocksDone = s.blocksDone := rfl
@[simp] theorem State.portRead_cursor (o : Nat) (s : State) :
    (State.portRead o s).cursor = s.cursor := rfl
@[simp] theorem State.portRead_pix (o : Nat) (s : State) :
    (State.portRead o s).pix = s.pix := rfl
@[simp] theorem State.portRead_acc (o : Nat) (s : State) :
    (State.portRead o s).acc = s.acc := rfl
@[simp] theorem State.portRead_ccode (o : Nat) (s : State) :
    (State.portRead o s).ccode = s.ccode := rfl
@[simp] theorem State.portRead_mem (o : Nat) (s : State) :
    (State.portRead o s).mem = s.mem := rfl
@[simp] theorem State.portRead_race (o : Nat) (s : State) :
    (State.portRead o s).race = s.race := rfl
@[simp] theorem State.portRead_platform (o : Nat) (s : State) :
    (State.portRead o s).platform = s.platform := rfl
@[simp] theorem State.portRead_agenda (o : Nat) (s : State) :
    (State.portRead o s).agenda = s.agenda := rfl
@[simp] theorem State.portRead_seen (o : Nat) (s : State) :
    (State.portRead o s).seen = .reg o (s.readPort o) :: s.seen := rfl

/-! ### State.writeCode -/

@[simp] theorem State.writeCode_status (a : Nat) (bs : List Byte) (s : State) :
    (s.writeCode a bs).status = s.status := rfl
@[simp] theorem State.writeCode_cfg (a : Nat) (bs : List Byte) (s : State) :
    (s.writeCode a bs).cfg = s.cfg := rfl
@[simp] theorem State.writeCode_outLen (a : Nat) (bs : List Byte) (s : State) :
    (s.writeCode a bs).outLen = s.outLen := rfl
@[simp] theorem State.writeCode_blocksDone (a : Nat) (bs : List Byte) (s : State) :
    (s.writeCode a bs).blocksDone = s.blocksDone := rfl
@[simp] theorem State.writeCode_cursor (a : Nat) (bs : List Byte) (s : State) :
    (s.writeCode a bs).cursor = s.cursor := rfl
@[simp] theorem State.writeCode_pix (a : Nat) (bs : List Byte) (s : State) :
    (s.writeCode a bs).pix = s.pix := rfl
@[simp] theorem State.writeCode_acc (a : Nat) (bs : List Byte) (s : State) :
    (s.writeCode a bs).acc = s.acc := rfl
@[simp] theorem State.writeCode_ccode (a : Nat) (bs : List Byte) (s : State) :
    (s.writeCode a bs).ccode = s.ccode := rfl
@[simp] theorem State.writeCode_mem (a : Nat) (bs : List Byte) (s : State) :
    (s.writeCode a bs).mem = s.mem.writeBytes a (s.settled s.race.draws a bs) := rfl
@[simp] theorem State.writeCode_race (a : Nat) (bs : List Byte) (s : State) :
    (s.writeCode a bs).race =
      { s.race with
        blockOut := s.race.blockOut.writeBytes a bs
        draws := s.race.draws + (if s.race.hostOut.isEmpty then 0 else bs.length) } := rfl
@[simp] theorem State.writeCode_platform (a : Nat) (bs : List Byte) (s : State) :
    (s.writeCode a bs).platform = s.platform := rfl
@[simp] theorem State.writeCode_agenda (a : Nat) (bs : List Byte) (s : State) :
    (s.writeCode a bs).agenda = s.agenda := rfl
@[simp] theorem State.writeCode_seen (a : Nat) (bs : List Byte) (s : State) :
    (s.writeCode a bs).seen = s.seen := rfl

end Sys2Proof.Machine
end

