-- ==== Sys2Proof/Laws/Ops.lean ====
section
/-! SUPPORT. What each shared operation can do, said once: the command dispatch, the command start, the emission of a code,
the port, and the turns. -/

namespace Sys2Proof.Machine

/-! ### Dispatch -/

theorem State.dispatch_busy {f g : State → State} {s : State} (h : s.status.state = .busy) :
    s.dispatch f g = s.setIgn true := by simp [State.dispatch, h]

theorem State.dispatch_error {f g : State → State} {s : State} (h : s.status.state = .error) : s.dispatch f g = f s := by
  simp [State.dispatch, h]

theorem State.dispatch_accepts {f g : State → State} {s : State} (h : s.status.state = .idle ∨ s.status.state = .done) :
    s.dispatch f g = g (s.setIgn false) := by
  rcases h with h | h <;> simp [State.dispatch, h]

/-! ### The command start -/

/-- Everything a start can do: a DIMENSION error, a region error with OUT_LEN written, or the initialised run. -/
theorem State.start_cases (m : Mode) (s : State) :
    (s.cfg.badDimension = true ∧ s.start m = s.raiseError .dimension) ∨
    (s.cfg.badDimension = false ∧ s.cfg.regionError (s.cfg.reqLen m) ≠ .none ∧
      s.start m = { s with outLen := BitVec.ofNat 64 (s.cfg.reqLen m) }.raiseError (s.cfg.regionError (s.cfg.reqLen m))) ∨
    (s.cfg.badDimension = false ∧ s.cfg.regionError (s.cfg.reqLen m) = .none ∧
      s.start m = { s with outLen := BitVec.ofNat 64 (s.cfg.reqLen m) }.init m) := by
  cases hd : s.cfg.badDimension with
  | true => simp [State.start, hd]
  | false =>
    cases hr : s.cfg.regionError (s.cfg.reqLen m) <;> simp [State.start, hd, hr]

theorem Cfg.tilesWide_le (c : Cfg) : c.tilesWide ≤ 8192 := by
  have := c.width.isLt
  simp only [Cfg.tilesWide, ceilDiv, Cfg.w]; omega

theorem Cfg.tilesHigh_le (c : Cfg) : c.tilesHigh ≤ 8192 := by
  have := c.height.isLt
  simp only [Cfg.tilesHigh, ceilDiv, Cfg.h]; omega

theorem Cfg.blockBytes_cases (c : Cfg) : (c.hasAlpha = true ∧ c.blockBytes = 16) ∨ (c.hasAlpha = false ∧ c.blockBytes = 8) := by
  cases h : c.hasAlpha <;> simp [Cfg.blockBytes, h]

theorem Cfg.reqLen_eq (c : Cfg) (m : Mode) : c.reqLen m = c.subBlocks m * c.blockBytes := by
  cases m <;> simp [Cfg.reqLen, Cfg.subBlocks]

theorem Cfg.subBlocks_le (c : Cfg) (m : Mode) : c.subBlocks m ≤ 2 ^ 28 := by
  cases m with
  | block => simp [Cfg.subBlocks]
  | image =>
    have := Nat.mul_le_mul c.tilesWide_le c.tilesHigh_le
    simp only [Cfg.subBlocks, Nat.mul_assoc]; omega

/-- The largest output length is 2^32 (40_host_commands.md R112). -/
theorem Cfg.reqLen_le (c : Cfg) (m : Mode) : c.reqLen m ≤ 2 ^ 32 := by
  have := c.subBlocks_le m
  rw [c.reqLen_eq]
  rcases c.blockBytes_cases with ⟨-, h⟩ | ⟨-, h⟩ <;> rw [h] <;> omega

/-- What the four start checks leave when all pass (40_host_commands.md R111 to R115). -/
theorem Cfg.checks_passed {c : Cfg} {req : Nat} (hd : c.badDimension = false) (hr : c.regionError req = .none) :
    0 < c.w ∧ 0 < c.h ∧ c.srcBytes ≤ c.srcLen.toNat ∧ c.srcBase.toNat + c.srcBytes ≤ 2 ^ 64 ∧ c.outBase.toNat + req ≤ 2 ^ 64 ∧
      req ≤ c.outCap.toNat ∧ (c.outBase.toNat + req ≤ c.srcBase.toNat ∨ c.srcBase.toNat + c.srcBytes ≤ c.outBase.toNat) := by
  simp only [Cfg.badDimension, Bool.or_eq_false_iff, beq_eq_false_iff_ne, decide_eq_false_iff_not] at hd
  simp only [Cfg.regionError] at hr
  split at hr <;> try cases hr
  split at hr <;> try cases hr
  split at hr <;> try cases hr
  simp_all only [Cfg.badRange, Cfg.badSize, Cfg.badOverlap, Bool.or_eq_true, Bool.and_eq_true, decide_eq_true_eq]
  omega

/-! ### The block's writes -/

/-- Where the host kept away from the output region, the block's bytes land as they are. -/
theorem State.settled_untouched (s : State) (h : s.race.hostOut = []) (n a : Nat) (bs : List Byte) :
    s.settled n a bs = bs := by
  induction bs generalizing n a with
  | nil => rfl
  | cons b bs ih => simp [State.settled, h, ih]

@[simp] theorem State.settled_length (s : State) (n a : Nat) (bs : List Byte) : (s.settled n a bs).length = bs.length := by
  induction bs generalizing n a with
  | nil => rfl
  | cons b bs ih => simp [State.settled, ih]

@[simp] theorem bytesLE64_length (v : Code) : (bytesLE64 v).length = 8 := rfl

@[simp] theorem bytesBE64_length (v : Code) : (bytesBE64 v).length = 8 := rfl

/-- Everything an emission can do. -/
theorem State.emit_ok {s t : State} {a : Nat} {bs : List Byte} (h : s.emit a bs = .ok t) :
    a + bs.length ≤ 2 ^ 64 ∧ s.platform.outFails = false ∧ t = s.writeCode a bs := by
  unfold State.emit at h
  split at h
  · cases h
  next ha =>
    split at h
    · cases h
    next ho =>
      cases h
      exact ⟨by omega, by simpa using ho, rfl⟩

theorem State.emit_eq {s : State} {a : Nat} {bs : List Byte} (ha : a + bs.length ≤ 2 ^ 64) (ho : s.platform.outFails = false) :
    s.emit a bs = .ok (s.writeCode a bs) := by
  unfold State.emit
  rw [if_neg (Nat.not_lt.2 ha), ho]
  rfl

theorem outcome_next {x : Except Fault State} {t : State} : outcome x = .next t ↔ x = .ok t := by
  cases x <;> simp [outcome]

/-- What the memory of an emission reads as outside the code's bytes. -/
theorem State.writeCode_outside (s : State) (a b : Nat) (bs : List Byte) (hm : s.mem.wf) (ha : a + bs.length ≤ 2 ^ 64)
    (hb : b < a ∨ a + bs.length ≤ b) : (s.writeCode a bs).mem.read b = s.mem.read b := by
  rw [State.writeCode_mem, Memory.read_writeBytes_outside _ _ _ hm (by simpa using ha) b (by simpa using hb)]

theorem State.writeCode_wf (s : State) (a : Nat) (bs : List Byte) (hm : s.mem.wf) (ha : a + bs.length ≤ 2 ^ 64) :
    (s.writeCode a bs).mem.wf := by
  rw [State.writeCode_mem]; exact Memory.writeBytes_wf _ _ _ hm (by simpa using ha)

/-- What the record of the command's own writes reads as after a write. -/
theorem State.writeCode_blockOut_read (s : State) (a b : Nat) (bs : List Byte) (hm : s.race.blockOut.wf)
    (ha : a + bs.length ≤ 2 ^ 64) :
    (s.writeCode a bs).race.blockOut.read b =
      if a ≤ b ∧ b < a + bs.length then bs.getD (b - a) 0 else s.race.blockOut.read b := by
  rw [State.writeCode_race]; exact Memory.read_writeBytes _ _ _ hm ha b

theorem State.writeCode_blockOut_wf (s : State) (a : Nat) (bs : List Byte) (hm : s.race.blockOut.wf)
    (ha : a + bs.length ≤ 2 ^ 64) : (s.writeCode a bs).race.blockOut.wf := by
  rw [State.writeCode_race]; exact Memory.writeBytes_wf _ _ _ hm ha

/-- A byte the host did not write reads the same in memory and in the record of the command's writes after a write of the
block that covers it, or if it did before. -/
theorem State.writeCode_recorded (s : State) (a b : Nat) (bs : List Byte) (hm : s.mem.wf) (ho : s.race.blockOut.wf)
    (ha : a + bs.length ≤ 2 ^ 64) (hb : b ∉ s.race.hostOut)
    (h : (a ≤ b ∧ b < a + bs.length) ∨ s.mem.read b = s.race.blockOut.read b) :
    (s.writeCode a bs).mem.read b = (s.writeCode a bs).race.blockOut.read b := by
  rw [s.writeCode_blockOut_read a b bs ho ha, State.writeCode_mem,
    Memory.read_writeBytes _ _ _ hm (by simpa using ha), State.settled_length]
  split
  next hin =>
    rcases s.settled_getD s.race.draws a bs (b - a) (by omega) with h' | ⟨h', -⟩
    · exact h'
    · rw [Nat.add_sub_cancel' hin.1] at h'; exact absurd h' hb
  next hout => exact h.resolve_left hout

/-! ### The record of the host's writes -/

@[simp] theorem State.taint_memBefore (s : State) : s.taint.memBefore = s.race.memBefore := by
  unfold State.taint; split <;> rfl

@[simp] theorem State.taint_srcTainted (s : State) : s.taint.srcTainted = true := by
  unfold State.taint; split
  · assumption
  · rfl

@[simp] theorem State.taint_hostOut (s : State) : s.taint.hostOut = s.race.hostOut := by
  unfold State.taint; split <;> rfl

@[simp] theorem State.taint_blockOut (s : State) : s.taint.blockOut = s.race.blockOut := by
  unfold State.taint; split <;> rfl

/-- Once the host has written the source region, a further write to it changes no draw of the command. -/
theorem State.taint_again {s : State} (h : s.race.srcTainted = true) : s.taint = s.race := by
  rw [State.taint, if_pos h]

/-! ### The value the command writes at an output byte -/

theorem State.commandByte_written {s : State} {j : Nat} (h : j < s.emitted) :
    s.commandByte j = s.race.blockOut.read (s.cfg.outBase.toNat + j) := if_pos h

theorem State.commandByte_pending {s : State} {j : Nat} (h : s.emitted ≤ j) :
    s.commandByte j =
      (s.cfg.codeBytes (s.alphaOf (j / s.cfg.blockBytes)) (s.colorOf (j / s.cfg.blockBytes))).getD (j % s.cfg.blockBytes) 0 :=
  if_neg (Nat.not_lt.2 h)

/-- A sub-block after the current one has no part of the datapath yet. -/
theorem State.alphaOf_other {s : State} {n : Nat} (h : n ≠ s.blocksDone.toNat) :
    s.alphaOf n = alphaCode (s.pixelsAt n (s.cfg.originAt s.cursor.mode n)) := by
  simp [State.alphaOf, State.pixelsOf, State.atSubBlock, h]

theorem State.colorOf_other {s : State} {n : Nat} (h : n ≠ s.blocksDone.toNat) :
    s.colorOf n = Config.Q (rgbs (s.pixelsAt n (s.cfg.originAt s.cursor.mode n))) s.cfg.quality := by
  simp [State.colorOf, State.pixelsOf, State.atSubBlock, h]

/-! ### Scripts -/

@[simp] theorem eventOf_transaction (gaps : List Nat) (x : Transaction) :
    (Turn.host (eventOf gaps x)).transaction = some x := by cases x <;> rfl

theorem filterMap_sequencers (n : Nat) : (List.replicate n Turn.sequencer).filterMap Turn.transaction = [] := by
  induction n with
  | zero => rfl
  | succ n ih => rw [List.replicate_succ, List.filterMap_cons]; exact ih

/-- The paces add turns of the sequencer alone. -/
theorem paced_transactions (paces : List Pace) (xs : List Transaction) :
    (paced paces xs).filterMap Turn.transaction = xs := by
  induction xs generalizing paces with
  | nil => rw [paced]; rfl
  | cons x xs ih =>
    cases paces with
    | nil => simp [paced, ih]
    | cons p ps => simp [paced, filterMap_sequencers, ih]

/-! ### Next states of the micro-operations -/

theorem execGather_next {s t : State} (h : execGather s = .next t) :
    t = { s with
      pix := s.gathered
      status := { s.status with phase := s.cfg.afterGather } } := by
  unfold execGather at h
  split at h
  · cases h
  · split at h
    · cases h
    · cases h; rfl

theorem execEmitAlpha_next {s t : State} (h : execEmitAlpha s = .next t) :
    s.alphaAddr + 8 ≤ 2 ^ 64 ∧
      t = { s.writeCode s.alphaAddr (bytesLE64 s.acc) with
        cursor := { s.cursor with wpos := 8 }
        status := { s.status with phase := .quantize } } := by
  unfold execEmitAlpha at h
  rw [outcome_next] at h
  cases he : s.emit s.alphaAddr (bytesLE64 s.acc) with
  | error f => rw [he] at h; cases h
  | ok u =>
    rw [he] at h
    cases h
    obtain ⟨ha, -, rfl⟩ := State.emit_ok he
    exact ⟨by simpa using ha, rfl⟩

theorem execEmitColor_next {s t : State} (h : execEmitColor s = .next t) :
    s.colorAddr + 8 ≤ 2 ^ 64 ∧ t = State.setPhase .advance (s.writeCode s.colorAddr (bytesBE64 s.ccode)) := by
  unfold execEmitColor at h
  rw [outcome_next] at h
  cases he : s.emit s.colorAddr (bytesBE64 s.ccode) with
  | error f => rw [he] at h; cases h
  | ok u =>
    rw [he] at h
    cases h
    obtain ⟨ha, -, rfl⟩ := State.emit_ok he
    exact ⟨by simpa using ha, rfl⟩

theorem execQuantize_next {s t : State} (h : execQuantize s = .next t) : t = s.quantizeWith Config.Q := by
  unfold execQuantize at h
  split at h <;> cases h
  rfl

/-! ### Turns -/

/-- The micro-operation the STATUS word selects depends on STATE and PHASE alone (30_encoding.md R84). -/
theorem decodePhase_word (t : Status) :
    decodePhase t.word =
      if t.state ≠ .busy then .error .notBusy
      else
        match t.phase with
        | .none => .error .noPhase
        | .gather => .ok .gather
        | .alphaPack => .ok .alphaPack
        | .emitAlpha => .ok .emitAlpha
        | .quantize => .ok .quantize
        | .emitColor => .ok .emitColor
        | .advance => .ok .advance := by
  obtain ⟨st, ign, ph, e⟩ := t
  cases st <;> cases ign <;> cases ph <;> cases e <;> rfl

/-- A turn of the sequencer while not BUSY changes nothing (60_exceptions.md R204). -/
theorem sequencerTurn_idle {s : State} (h : s.status.state ≠ .busy) : sequencerTurn s = .next s := by
  simp [sequencerTurn, decodePhase_word, h]

/-- A turn of the sequencer while BUSY runs the micro-operation of PHASE. -/
theorem sequencerTurn_busy {s : State} (h : s.status.state = .busy) :
    sequencerTurn s =
      match s.status.phase with
      | .none => .fault .noMicroOp
      | .gather => execGather s
      | .alphaPack => execAlphaPack s
      | .emitAlpha => execEmitAlpha s
      | .quantize => execQuantize s
      | .emitColor => execEmitColor s
      | .advance => execAdvance s := by
  simp only [sequencerTurn, decodePhase_word, h]
  cases s.status.phase <;> rfl

end Sys2Proof.Machine
end

