-- ==== Sys2Proof/Laws/PerInstr.lean ====
section
/-! SUPPORT. The encoding of each instruction, one lemma per constructor (30_encoding.md R81, R84). -/

namespace Sys2Proof.Laws.RoundTrip

/-- The instruction is well formed, its word has no bit outside the row's mask, and both its own form's decoder and the opcode
table's give it back. -/
def Statement (i : Instr) : Prop :=
  i.wellFormed = true ∧ encode i &&& i.format.mask = encode i ∧ decode i.format (encode i) = .ok i ∧
    decodeTable (encode i) = .ok i

theorem nop : Statement .nop := ⟨rfl, rfl, rfl, rfl⟩
theorem encodeImage : Statement .encodeImage := ⟨rfl, rfl, rfl, rfl⟩
theorem encodeBlock : Statement .encodeBlock := ⟨rfl, rfl, rfl, rfl⟩
theorem releaseBuffer : Statement .releaseBuffer := ⟨rfl, rfl, rfl, rfl⟩
theorem ackError : Statement .ackError := ⟨rfl, rfl, rfl, rfl⟩
theorem gather : Statement .gather := ⟨rfl, rfl, rfl, rfl⟩
theorem alphaPack : Statement .alphaPack := ⟨rfl, rfl, rfl, rfl⟩
theorem emitAlpha : Statement .emitAlpha := ⟨rfl, rfl, rfl, rfl⟩
theorem quantize : Statement .quantize := ⟨rfl, rfl, rfl, rfl⟩
theorem emitColor : Statement .emitColor := ⟨rfl, rfl, rfl, rfl⟩
theorem advance : Statement .advance := ⟨rfl, rfl, rfl, rfl⟩

end Sys2Proof.Laws.RoundTrip
end

