-- ==== Sys2Proof/Laws/Step.lean ====
section
/-! SUPPORT. What one step can do, said once: the turn it takes, the states a command can leave, the states a host turn can
leave, and the micro-operation of the sequencer's turn. -/

namespace Sys2Proof.Machine

/-! ### The turn -/

theorem step_nil {s : State} (h : s.agenda = []) : step s = sequencerTurn s := by simp [step, nextTurn, h]

theorem step_sequencer {s : State} {r : List Turn} (h : s.agenda = .sequencer :: r) :
    step s = sequencerTurn { s with agenda := r } := by simp [step, nextTurn, h]

theorem step_host {s : State} {e : HostEvent} {r : List Turn} (h : s.agenda = .host e :: r) :
    step s = hostTurn e { s with agenda := r } := by simp [step, nextTurn, h]

/-- Everything a turn of the sequencer can do. -/
theorem sequencerTurn_cases {s t : State} (h : sequencerTurn s = .next t) :
    (s.status.state ≠ .busy ∧ t = s) ∨
    (s.status.state = .busy ∧
      ((s.status.phase = .gather ∧ execGather s = .next t) ∨ (s.status.phase = .alphaPack ∧ execAlphaPack s = .next t) ∨
        (s.status.phase = .emitAlpha ∧ execEmitAlpha s = .next t) ∨ (s.status.phase = .quantize ∧ execQuantize s = .next t) ∨
        (s.status.phase = .emitColor ∧ execEmitColor s = .next t) ∨ (s.status.phase = .advance ∧ execAdvance s = .next t))) := by
  by_cases hb : s.status.state = .busy
  · rw [sequencerTurn_busy hb] at h
    refine .inr ⟨hb, ?_⟩
    cases hp : s.status.phase <;> simp_all
  · rw [sequencerTurn_idle hb] at h
    cases h
    exact .inl ⟨hb, rfl⟩

/-! ### Commands -/

/-- The states a CMD write of any word can leave (40_host_commands.md R103, R105 to R118). -/
def State.AfterCommand (s t : State) : Prop :=
  ((s.status.state = .busy ∨ s.status.state = .error) ∧ t = s.setIgn true) ∨
  (s.status.state = .error ∧ (t = s ∨ t = s.errorReturn)) ∨
  ((s.status.state = .idle ∨ s.status.state = .done) ∧
    (t = s.setIgn false ∨ ∃ c, c ≠ .none ∧ t = (s.setIgn false).raiseError c)) ∨
  (s.status.state = .done ∧ t = (s.setIgn false).setRun .idle) ∨
  (s.status.state = .idle ∧ s.cfg.badDimension = false ∧ ∃ m,
    (s.cfg.regionError (s.cfg.reqLen m) ≠ .none ∧
      t = { s.setIgn false with outLen := BitVec.ofNat 64 (s.cfg.reqLen m) }.raiseError (s.cfg.regionError (s.cfg.reqLen m))) ∨
    (s.cfg.regionError (s.cfg.reqLen m) = .none ∧
      t = { s.setIgn false with outLen := BitVec.ofNat 64 (s.cfg.reqLen m) }.init m))

theorem State.encodeCommand_after (m : Mode) (s : State) :
    s.AfterCommand (s.dispatch (State.setIgn true) (State.encodeCommand m)) := by
  cases h : s.status.state with
  | busy => rw [State.dispatch_busy h]; exact .inl ⟨.inl h, rfl⟩
  | error => rw [State.dispatch_error h]; exact .inl ⟨.inr h, rfl⟩
  | done =>
    rw [State.dispatch_accepts (.inr h)]
    exact .inr (.inr (.inl ⟨.inr h, .inr ⟨.badState, by decide, by simp [State.encodeCommand, h]⟩⟩))
  | idle =>
    rw [State.dispatch_accepts (.inl h)]
    have e : State.encodeCommand m (s.setIgn false) = (s.setIgn false).start m := by simp [State.encodeCommand, h]
    rw [e]
    rcases (s.setIgn false).start_cases m with ⟨-, hs⟩ | ⟨hd, hr, hs⟩ | ⟨hd, hr, hs⟩ <;> rw [hs]
    · exact .inr (.inr (.inl ⟨.inl h, .inr ⟨.dimension, by decide, rfl⟩⟩))
    · exact .inr (.inr (.inr (.inr ⟨h, hd, m, .inl ⟨hr, rfl⟩⟩)))
    · exact .inr (.inr (.inr (.inr ⟨h, hd, m, .inr ⟨hr, rfl⟩⟩)))

theorem exec_command_after {i : Instr} {s t : State} (hi : i.format = .cmd) (h : exec i s = .next t) : s.AfterCommand t := by
  cases i <;> first | exact absurd hi (by decide) | skip
  all_goals cases h
  case encodeImage => exact s.encodeCommand_after .image
  case encodeBlock => exact s.encodeCommand_after .block
  all_goals
    cases h : s.status.state <;>
      simp [State.AfterCommand, State.dispatch, h, State.setIgn, State.raiseError, State.setRun, State.errorReturn]

theorem State.illegalCommand_after (s : State) : s.AfterCommand s.illegalCommand := by
  cases h : s.status.state <;>
    simp [State.illegalCommand, State.AfterCommand, State.dispatch, h, State.setIgn, State.raiseError]

theorem decodeCmd_format {w : Word} {i : Instr} (h : decodeCmd w = .ok i) : i.format = .cmd := by
  unfold decodeCmd at h
  repeat' split at h
  all_goals first | cases h; done | (cases h; rfl)

/-- Everything a CMD write can do, whatever the word. -/
theorem cmdWrite_after {v : Word} {s t : State} (h : cmdWrite v s = .next t) : s.AfterCommand t := by
  unfold cmdWrite at h
  split at h
  next i hd => exact exec_command_after (decodeCmd_format hd) h
  next => cases h; exact s.illegalCommand_after

/-- A CMD write always answers a next state. -/
theorem cmdWrite_next (v : Word) (s : State) : ∃ t, cmdWrite v s = .next t := by
  unfold cmdWrite
  split
  next i hd => have hf := decodeCmd_format hd; cases i <;> first | exact absurd hf (by decide) | exact ⟨_, rfl⟩
  next => exact ⟨_, rfl⟩

/-! ### The port -/

@[simp] theorem regAt_offset (r : Reg) : regAt r.offset = some r := by cases r <;> rfl

theorem regAt_some {o : Nat} {r : Reg} (h : regAt o = some r) : r.offset = o := by
  unfold regAt at h
  split at h <;> cases h <;> rfl

theorem portWrite_register (r : Reg) (v : Word) (s : State) :
    portWrite r.offset v s =
      match r.access with
      | .writeOnly => cmdWrite v s
      | .readOnly => .next s
      | .readWrite => .next (s.configWrite r v) := by cases r <;> rfl

/-- Everything a port access can do. -/
theorem portAccess_cases {a : Access} {s t : State} (h : portAccess a s = .next t) :
    (∃ o, a = .read 32 o ∧ t = s.portRead o) ∨
    (∃ o v, a = .write 32 o v ∧
      ((o = 0 ∧ cmdWrite v s = .next t) ∨ t = s ∨
        (∃ r : Reg, r.access = .readWrite ∧ r.offset = o ∧ t = s.configWrite r v))) := by
  unfold portAccess at h
  split at h
  next hl =>
    cases a with
    | read w o =>
      simp only [Access.legal, Bool.and_eq_true, beq_iff_eq] at hl
      cases h
      exact .inl ⟨o, by rw [hl.1], rfl⟩
    | write w o v =>
      simp only [Access.legal, Bool.and_eq_true, beq_iff_eq] at hl
      refine .inr ⟨o, v, by rw [hl.1], ?_⟩
      simp only [portWrite] at h
      split at h
      · cases h; exact .inr (.inl rfl)
      next r hr =>
        have ho := regAt_some hr
        split at h
        next ha =>
          have : r = .cmd := by cases r <;> first | rfl | exact absurd ha (by decide)
          subst this
          exact .inl ⟨ho.symm, h⟩
        · cases h; exact .inr (.inl rfl)
        next ha => cases h; exact .inr (.inr ⟨r, ha, ho, rfl⟩)
  next => cases h

/-! ### A step -/

/-- Everything a step can do: it takes one turn off the agenda, and then is a turn of the sequencer or one of the host's. -/
theorem step_cases {s t : State} (h : step s = .next t) :
    ∃ r, ((s.agenda = [] ∧ r = [] ∨ s.agenda = .sequencer :: r) ∧ sequencerTurn { s with agenda := r } = .next t) ∨
      ∃ e, s.agenda = .host e :: r ∧ hostTurn e { s with agenda := r } = .next t := by
  cases ha : s.agenda with
  | nil =>
    rw [step_nil ha] at h
    refine ⟨[], .inl ⟨.inl ⟨rfl, rfl⟩, ?_⟩⟩
    rw [← ha]
    exact h
  | cons e r =>
    cases e with
    | sequencer => rw [step_sequencer ha] at h; exact ⟨r, .inl ⟨.inr rfl, h⟩⟩
    | host e => rw [step_host ha] at h; exact ⟨r, .inr ⟨e, rfl, h⟩⟩

/-! ### Runs -/

/-- A run whose first step gives `t` goes on from `t`. -/
theorem run_succ {s t : State} (h : step s = .next t) (k : Nat) : Host.Core.run core (k + 1) s = Host.Core.run core k t := by
  have h' : core.step s = .next t := h
  simp only [Host.Core.run, h']

end Sys2Proof.Machine
end

