-- ==== Sys2Proof/Tests/Slice0.lean ====
section
/-! SUPPORT. Tests on fixed values, with expected results taken from the spec (30_encoding.md, 95_test_vectors.md), and for every
obligation with hypotheses a state and operands that meet them. -/

namespace Sys2Proof.Tests

open Sys2Proof.Machine

/-! ### Helpers -/

/-- A field of the next state, if there is one. -/
def after {α : Type} (o : Host.Outcome State Fault Refusal) (f : State → α) : Option α :=
  match o with
  | .next s => some (f s)
  | .fault _ => none
  | .refused _ => none

/-- The reset state with STATUS set by hand. -/
def withStatus (r : RunState) (ign : Bool) (p : Phase) (e : ErrCode) : State :=
  { State.reset with status := { state := r, ign := ign, phase := p, errCode := e } }

/-- The reset state in one of the four states. -/
def inState (r : RunState) : State := withStatus r false .none .none

/-- A state whose next turn is one of the host's. -/
def pending (e : HostEvent) (s : State) : State := { s with agenda := [.host e] }

/-- A state whose next turn is the host's write of a word to CMD. -/
def commanding (w : Word) (s : State) : State := pending (.port (.write 32 0 w)) s

/-- The base case of 95_test_vectors.md 2.8. -/
def baseCfg : Cfg :=
  { width := 8, height := 8, config := 0, blockX := 0, blockY := 0
    srcBase := 0x1000, srcLen := 256, outBase := 0x2000, outCap := 32 }

/-- The base case in IDLE. -/
def base : State := { State.reset with cfg := baseCfg }

/-- The base case just started. -/
def started : State :=
  { base with
    outLen := 32
    status := { state := .busy, ign := false, phase := .gather, errCode := .none } }

/-- The base case with other registers. -/
def baseWith (f : Cfg → Cfg) : State := { base with cfg := f baseCfg }

/-- STATUS and OUT_LEN after ENCODE_IMAGE. -/
def startResult (s : State) : Option (Word × BitVec 64) := after (exec .encodeImage s) fun t => (t.status.word, t.outLen)

/-- The test double of 95_test_vectors.md section 0. -/
def qprobe (rgb : Vector Rgb 16) (quality : BitVec 2) : Code :=
  rgb[0].r ++ rgb[0].g ++ rgb[0].b ++ rgb[15].r ++ rgb[15].g ++ rgb[15].b ++ rgb[1].r ++ quality.setWidth 8

/-! ### WellFormed refuses ill-formed terms -/

theorem test_access_width_refused : (Access.read 16 0x04).legal = false := by decide
theorem test_access_offset_refused : (Access.write 32 0x06 0).legal = false := by decide
theorem test_line_cmd_of_microop_refused : (Line.cmd .gather).wellFormed = false := by decide
theorem test_line_wait_for_nothing_refused : (Line.wait []).wellFormed = false := by decide
theorem test_line_wait_for_three_refused : (Line.wait [.idle, .done, .error]).wellFormed = false := by decide
theorem test_line_wait_for_two_accepted : (Line.wait [.done, .error]).wellFormed = true := by decide
theorem test_memory_zero_entry_not_canonical : ¬Memory.wf [(0x1000, 0)] := by decide
theorem test_memory_unsorted_not_canonical : ¬Memory.wf [(2, 1), (1, 1)] := by decide

/-! ### Decoding: each constructor's word, written out from 30_encoding.md R81 and R84 -/

theorem test_decode_nop : decodeCmd 0b00000000000000000000000000000000#32 = .ok .nop := by decide
theorem test_decode_encodeImage : decodeCmd 0b00000000000000000000000000000001#32 = .ok .encodeImage := by decide
theorem test_decode_encodeBlock : decodeCmd 0b00000000000000000000000000000010#32 = .ok .encodeBlock := by decide
theorem test_decode_releaseBuffer : decodeCmd 0b00000000000000000000000000000011#32 = .ok .releaseBuffer := by decide
theorem test_decode_ackError : decodeCmd 0b00000000000000000000000000000100#32 = .ok .ackError := by decide
theorem test_decode_gather : decodePhase 0b00000000000000000000000000010001#32 = .ok .gather := by decide
theorem test_decode_alphaPack : decodePhase 0b00000000000000000000000000100001#32 = .ok .alphaPack := by decide
theorem test_decode_emitAlpha : decodePhase 0b00000000000000000000000000110001#32 = .ok .emitAlpha := by decide
theorem test_decode_quantize : decodePhase 0b00000000000000000000000001000001#32 = .ok .quantize := by decide
theorem test_decode_emitColor : decodePhase 0b00000000000000000000000001010001#32 = .ok .emitColor := by decide
theorem test_decode_advance : decodePhase 0b00000000000000000000000001100001#32 = .ok .advance := by decide

/-- STATUS bits outside the mask play no part; reserved words select nothing (R82, R85). -/
theorem test_decode_edges :
    decodePhase 0xFFFFFF9D#32 = .ok .gather ∧ decodePhase 0x00000071#32 = .error .reservedPhase ∧
    decodePhase 0x00000001#32 = .error .noPhase ∧ decodePhase 0x00000012#32 = .error .notBusy ∧
    decodeCmd 0x80000001#32 = .error .reservedBits ∧ decodeCmd 0x0000000F#32 = .error .reservedOpcode := by decide

/-- The opcode table's words, and a word longer than 32 bits (R89). -/
theorem test_decode_table :
    decodeTableWord 32 0x04 = some .ackError ∧ decodeTableWord 8 0x61 = some .advance ∧
    decodeTableWord 32 0x05 = none ∧ decodeTableWord 64 0x100000001 = none := by decide

/-! ### The commands (95_test_vectors.md 2.7, 2.8) -/

theorem test_nop_done : after (exec .nop (withStatus .done true .none .none)) (·.status.word) = some 0x00000002 := by decide
theorem test_nop_error : after (exec .nop (withStatus .error false .none .dimension)) (·.status.word) = some 0x00000303 := by decide

theorem test_encodeImage_start :
    after (exec .encodeImage base) (fun t => (t.status.word, t.outLen, t.blocksDone)) = some (0x00000011, 32, 0) := by decide

/-- 95_test_vectors.md 2.8, each check beside its nearest passing case. -/
theorem test_encodeImage_checks :
    startResult (baseWith fun c => { c with width := 0 }) = some (0x00000303, 0) ∧
    startResult (baseWith fun c => { c with srcLen := 255 }) = some (0x00000303, 0) ∧
    startResult (baseWith fun c => { c with outCap := 31 }) = some (0x00000503, 32) ∧
    startResult (baseWith fun c => { c with config := 1 }) = some (0x00000503, 64) ∧
    startResult (baseWith fun c => { c with outBase := 0xFFFFFFFFFFFFFFE0 }) = some (0x00000011, 32) ∧
    startResult (baseWith fun c => { c with outBase := 0xFFFFFFFFFFFFFFE1 }) = some (0x00000403, 32) ∧
    startResult (baseWith fun c => { c with outBase := 0x10F8 }) = some (0x00000603, 32) ∧
    startResult (baseWith fun c => { c with outBase := 0x1100 }) = some (0x00000011, 32) ∧
    startResult (baseWith fun c => { c with outBase := 0x0FE1 }) = some (0x00000603, 32) ∧
    startResult (baseWith fun c => { c with outCap := 0, outBase := 0x1000 }) = some (0x00000503, 32) := by decide

theorem test_encodeBlock_start :
    after (exec .encodeBlock (baseWith fun c => { c with config := 1 })) (fun t => (t.status.word, t.outLen, t.cursor.mode)) =
      some (0x00000011, 16, .block) := by decide

theorem test_releaseBuffer_done : after (exec .releaseBuffer (inState .done)) (·.status.word) = some 0x00000000 := by decide
theorem test_releaseBuffer_twice : after (exec .releaseBuffer (inState .idle)) (·.status.word) = some 0x00000203 := by decide

theorem test_ackError_error :
    after (exec .ackError (withStatus .error true .none .dimension)) (·.status.word) = some 0x00000000 := by decide
theorem test_ackError_done : after (exec .ackError (inState .done)) (·.status.word) = some 0x00000203 := by decide

/-- ACK_ERROR with a reserved bit in ERROR is ignored (2.7), and an illegal word in IDLE is ILLEGAL_CMD. -/
theorem test_illegal_words :
    after (step (commanding 0x00000014 (withStatus .error false .none .dimension))) (·.status.word) = some 0x00000307 ∧
    after (step (commanding 0x00000011 (inState .idle))) (·.status.word) = some 0x00000103 := by decide

/-! ### The micro-operations (95_test_vectors.md 2.3 to 2.5, 2.10) -/

/-- A 1×1 image with pixel bytes 11 22 33 FF at 0x1000; block-space (0, 0) is its only pixel in bounds (2.4, 2.10). -/
theorem test_gather_pixel :
    after
      (exec .gather
        { State.reset with
          cfg := { baseCfg with width := 1, height := 1 }
          mem := [(0x1000, 0x11), (0x1001, 0x22), (0x1002, 0x33), (0x1003, 0xFF)] })
      (fun t => (t.pix[0], t.pix[1], t.status.phase)) = some (0xFF332211, 0, .quantize) := by decide

/-- The source read order of program P2's sub-block 0. -/
theorem test_gather_reads :
    gatherReads { baseCfg with width := 5, height := 5 } (0, 0) =
      [0x1050, 0x1054, 0x1058, 0x105C, 0x103C, 0x1040, 0x1044, 0x1048, 0x1028, 0x102C, 0x1030, 0x1034,
        0x1014, 0x1018, 0x101C, 0x1020] := by decide

/-- Each alpha nibble the pixel's column (2.3). -/
theorem test_alphaPack_columns :
    after (exec .alphaPack { State.reset with pix := Vector.ofFn fun k => BitVec.ofNat 32 (k.val % 4 * 2 ^ 28) }) (·.acc) =
      some 0x3333222211110000 := by decide

/-- Only `pix[1]` has alpha 0xA0 (2.3). -/
theorem test_alphaPack_transposed :
    after (exec .alphaPack { State.reset with pix := Vector.ofFn fun k => if k = 1 then 0xA0000000 else 0 }) (·.acc) =
      some 0x00000000000A0000 := by decide

theorem test_emitAlpha_bytes :
    after (exec .emitAlpha { State.reset with acc := 0x3333222211110000, cfg := { baseCfg with outBase := 0x3000, config := 1 } })
      (fun t => (t.mem.readBytes 0x3000 8, t.cursor.wpos)) =
      some ([0x00, 0x00, 0x11, 0x11, 0x22, 0x22, 0x33, 0x33], 8) := by decide

/-- Every position out of bounds, quality 2 (2.10), with the test double for `Q`. -/
theorem test_quantize_quality :
    (State.quantizeWith qprobe { State.reset with cfg := { baseCfg with config := 4 } }).ccode = 0x0000000000000002 := by decide

theorem test_quantize_answers : after (exec .quantize State.reset) (·.status.phase) = some .emitColor := rfl

theorem test_emitColor_bytes :
    after (exec .emitColor { State.reset with ccode := 0x0123456789ABCDEF, cfg := baseCfg, blocksDone := 1 })
      (fun t => t.mem.readBytes 0x2008 8) = some [0x01, 0x23, 0x45, 0x67, 0x89, 0xAB, 0xCD, 0xEF] := by decide

/-- `AlphaNibbleInImageSpace`, in bounds and out: nibble 4 (column 1, row 0) of P2's sub-block 0 is 8: image pixel (1, 4) has alpha 0x85. -/
theorem test_alpha_of_image :
    let c : Cfg := { baseCfg with width := 5, height := 5 }
    (alphaCode (gatherAt c [(0x1057, 0x85)] (0, 0))).extractLsb' 16 4 = 8 ∧ c.inImage (c.posOf (0, 0) 1) = true ∧
    c.inImage (c.posOf (0, 4) 4) = false := by decide

/-- W = 20, H = 12 (2.5): from (2,0,3) to (0,1,0), and the last sub-block. -/
def at20x12 (tx ty : BitVec 13) (q : BitVec 2) (blocks : BitVec 32) : State :=
  { State.reset with
    cfg := { baseCfg with width := 20, height := 12, config := 1 }
    cursor := { mode := .image, tx := tx, ty := ty, q := q, wpos := 8 }
    blocksDone := blocks }

theorem test_advance_row :
    after (exec .advance (at20x12 2 0 3 11)) (fun t => (t.cursor, t.blocksDone, t.status.phase)) =
      some ({ mode := .image, tx := 0, ty := 1, q := 0, wpos := 0 }, 12, .gather) := by decide
theorem test_advance_done :
    after (exec .advance (at20x12 2 1 3 23)) (fun t => (t.status.state, t.status.phase, t.blocksDone)) =
      some (.done, .none, 24) := by decide

/-! ### The port, the scripts and placing an instruction -/

/-- 95_test_vectors.md 2.9. -/
theorem test_write_width :
    after (step (pending (.port (.write 32 0x08 0x12345678)) (inState .error))) (·.readPort 0x08) = some 0x00005678 := by decide
theorem test_write_config :
    after (step (pending (.port (.write 32 0x10 0xFFFFFFFF)) State.reset)) (·.readPort 0x10) = some 0x00000007 := by decide
theorem test_write_width_busy :
    after (step (pending (.port (.write 32 0x08 16)) started)) (fun t => (t.readPort 0x08, t.status.ign)) = some (8, true) := by
  decide

/-- Program P2's SETUP line. -/
theorem test_setup_line :
    expandLine (.setup 5 5 true 0 0x1000 100 0x2000 64) =
      [.access (.write 32 0x08 5), .access (.write 32 0x0C 5), .access (.write 32 0x10 1), .access (.write 32 0x20 0x1000),
        .access (.write 32 0x24 0), .access (.write 32 0x28 100), .access (.write 32 0x2C 0), .access (.write 32 0x30 0x2000),
        .access (.write 32 0x34 0), .access (.write 32 0x38 64), .access (.write 32 0x3C 0)] := by decide

/-- WAIT is one read of STATUS, two turns of the sequencer, and the next read; the CMD write before it follows one. -/
theorem test_script_paces :
    script [⟨1, []⟩, ⟨0, [2]⟩] [.encode] =
      [.sequencer, .host (.port (.write 32 0x00 1)), .host (.wait [.done, .error] [2])] := by decide

/-- An output byte of a sub-block out of bounds is fixed by the rules even when the host has written the source (2.10): byte 0 of
the alpha code is 0, and its host read while BUSY is that or the old byte. -/
theorem test_commandByte_tainted :
    let s : State :=
      { started with
        cfg := { baseCfg with config := 1, blockX := 0xFFFFFFFC }
        cursor := { started.cursor with mode := .block }
        race := { started.race with srcTainted := true } }
    s.commandByte 0 = 0 := by decide

theorem test_fetch_command : step (State.reset.withFetchWord 32 0x04) = exec .ackError State.reset := rfl
theorem test_fetch_microop :
    step (State.reset.withFetchWord 32 0x61) = exec .advance (withStatus .busy false .advance .none) := rfl

/-! ### Witnesses: states and operands that meet the obligations' hypotheses -/

/-- `NopEffect`, `ReleaseBufferEffect`, `AckErrorEffect` and `EncodeOutsideIdle`: a state for each clause. -/
theorem witness_four_states : ∀ r, (inState r).status.state = r := fun _ => rfl

theorem witness_ByteOrders : bytesLE64 0xEFCDAB8967452301 = bytesBE64 0x0123456789ABCDEF := by decide

theorem witness_ResetEventSetsRegisters :
    (pending .reset (withStatus .error false .none .overlap)).agenda = [.host .reset] ∧
    (pending .reset (withStatus .error false .none .overlap)).status.state ≠ .busy := by decide

theorem witness_PortWriteKeepsUsedBits :
    Reg.width.access = .readWrite ∧ Reg.config.access = .readWrite ∧ Reg.outCapHi.access = .readWrite ∧
    State.reset.status.state ≠ .busy ∧ (inState .error).status.state ≠ .busy := by decide

theorem witness_PairWriteSetsRegister (x : Reg64) (paces : List Pace) :
    let s : State := { State.reset with agenda := script paces [.w64 x 0xFFFFFFFFFFFFFFE1] }
    s.status.state ≠ .busy ∧ s.agenda = script paces [.w64 x 0xFFFFFFFFFFFFFFE1] :=
  ⟨show RunState.idle ≠ .busy by decide, rfl⟩

theorem witness_BusyConfigWriteIgnored : Reg.width.access = .readWrite ∧ started.status.state = .busy := by decide

/-- One offset of each kind, the lowest and the reserved ones, and the first unmapped. -/
theorem witness_ReadOnlyAndReservedOffsets :
    ∀ o ∈ [0x04, 0x1C, 0x40, 0x44, 0x48, 0x4C, 0x50], o % 4 = 0 ∧
      (o = 0x04 ∨ o = 0x40 ∨ o = 0x44 ∨ o = 0x48 ∨ o = 0x1C ∨ o = 0x4C ∨ 0x50 ≤ o) := by decide

theorem witness_IllegalAccessRefused : (31 ≠ 32 ∨ 0 % 4 ≠ 0) ∧ (32 ≠ 32 ∨ 1 % 4 ≠ 0) := by decide

theorem witness_StepRunsCommandWritten :
    decodeCmd 0x00000004 = .ok .ackError ∧ (commanding 0x00000004 base).agenda = [.host (.port (.write 32 0 0x00000004))] := by
  decide

theorem witness_StepRunsSelectedMicroOp :
    started.status.state = .busy ∧ Instr.gather.format = .phase ∧ started.status.phase = Instr.gather.phase ∧
    started.agenda = [] ∧ ({ started with agenda := [.sequencer] } : State).agenda = [.sequencer] := by decide

theorem witness_BusyIgnoresEveryCommand :
    (commanding 0 started).status.state = .busy ∧ (commanding 0 started).agenda = [.host (.port (.write 32 0 0))] := by decide

theorem witness_PortReadHasNoSideEffect (r : Reg) :
    (pending (.port (.read 32 r.offset)) base).agenda = [.host (.port (.read 32 r.offset))] := rfl

theorem witness_NotBusyTakesNoStep : base.status.state ≠ .busy ∧ base.agenda = [] := by decide

/-- Words of each clause: the first reserved opcode, the last, and a reserved bit. -/
theorem witness_IllegalCommandWord :
    ((0x00000010#32).extractLsb' 4 28 ≠ 0 ∨ 5 ≤ ((0x00000010#32).extractLsb' 0 4).toNat) ∧
    ((0x00000005#32).extractLsb' 4 28 ≠ 0 ∨ 5 ≤ ((0x00000005#32).extractLsb' 0 4).toNat) ∧
    ((0x0000000F#32).extractLsb' 4 28 ≠ 0 ∨ 5 ≤ ((0x0000000F#32).extractLsb' 0 4).toNat) := by decide

theorem witness_ErrorStateCommands :
    (commanding 0x00000005 (withStatus .error false .none .range)).status.state = .error ∧ (0x00000005 : Word) ≠ 0x00000004 ∧
    (0x00000005 : Word) ≠ 0x00000000 := by decide

/-- States for each clause, at the boundary of its range. -/
theorem witness_StartChecksInOrder :
    let dims (t : State) := t.cfg.width.toNat ≠ 0 ∧ t.cfg.height.toNat ≠ 0 ∧
      4 * t.cfg.width.toNat * t.cfg.height.toNat ≤ t.cfg.srcLen.toNat
    let srcEnd (t : State) := t.cfg.srcBase.toNat + 4 * t.cfg.width.toNat * t.cfg.height.toNat
    let outEnd (t : State) := t.cfg.outBase.toNat + 32
    let short := baseWith fun c => { c with srcLen := 255 }
    let high := baseWith fun c => { c with outBase := 0xFFFFFFFFFFFFFFE1 }
    let small := baseWith fun c => { c with outCap := 31 }
    let meets := baseWith fun c => { c with outBase := 0x0FE1 }
    base.status.state = .idle ∧
    32 = 4 * ((base.cfg.width.toNat + 7) / 8) * ((base.cfg.height.toNat + 7) / 8) * (if base.cfg.config.getLsbD 0 then 16 else 8) ∧
    short.cfg.srcLen.toNat < 4 * short.cfg.width.toNat * short.cfg.height.toNat ∧
    (dims high ∧ outEnd high > 2 ^ 64) ∧
    (dims small ∧ srcEnd small ≤ 2 ^ 64 ∧ outEnd small ≤ 2 ^ 64 ∧ small.cfg.outCap.toNat < 32) ∧
    (dims meets ∧ srcEnd meets ≤ 2 ^ 64 ∧ outEnd meets ≤ 2 ^ 64 ∧ 32 ≤ meets.cfg.outCap.toNat ∧
      meets.cfg.srcBase.toNat < outEnd meets ∧ meets.cfg.outBase.toNat < srcEnd meets) := by decide

theorem witness_EncodeStarts :
    base.status.state = .idle ∧
    32 = 4 * ((base.cfg.width.toNat + 7) / 8) * ((base.cfg.height.toNat + 7) / 8) * (if base.cfg.config.getLsbD 0 then 16 else 8) ∧
    base.cfg.width.toNat ≠ 0 ∧ base.cfg.height.toNat ≠ 0 ∧
    4 * base.cfg.width.toNat * base.cfg.height.toNat ≤ base.cfg.srcLen.toNat ∧
    base.cfg.srcBase.toNat + 4 * base.cfg.width.toNat * base.cfg.height.toNat ≤ 2 ^ 64 ∧
    base.cfg.outBase.toNat + 32 ≤ 2 ^ 64 ∧ 32 ≤ base.cfg.outCap.toNat ∧
    base.cfg.srcBase.toNat + 4 * base.cfg.width.toNat * base.cfg.height.toNat ≤ base.cfg.outBase.toNat := by decide

theorem witness_EncodeOutsideIdle : (inState .done).status.state = .done ∧ (inState .error).status.state = .error := by decide

/-- Each command answers a next state, so the frame speaks of each; an encode that does not start, and one while BUSY. -/
theorem witness_CommandFrame :
    (∀ i ∈ [Instr.nop, .encodeImage, .encodeBlock, .releaseBuffer, .ackError], i.format = .cmd ∧ (after (exec i base) id).isSome) ∧
    after (exec .encodeImage State.reset) (·.status.state) = some .error ∧ started.status.state = .busy := by decide

theorem witness_RequiredLength :
    8 = (if baseCfg.config.getLsbD 0 then 16 else 8) ∧ baseCfg.width.toNat % 8 = 0 ∧ baseCfg.height.toNat % 8 = 0 := by decide

theorem witness_CornerOfCursor :
    started.cursor.mode = .image ∧ ({ started with cursor := { started.cursor with mode := .block } } : State).cursor.mode = .block := by
  decide

/-- Position (0, 0) of sub-block 0 is in bounds (image row 7); row 3 of sub-block 2 of a 5×5 image is not. -/
theorem witness_GatherFillsBuffer :
    started.cfg.srcBase.toNat + 4 * started.cfg.width.toNat * started.cfg.height.toNat ≤ 2 ^ 64 ∧
    started.platform.srcFails = false ∧ started.race.srcTainted = false ∧ started.cfg.inImage (started.cfg.posOf started.origin 0) = true ∧
    ({ baseCfg with width := 5, height := 5 } : Cfg).inImage (({ baseCfg with width := 5, height := 5 } : Cfg).posOf (0, 4) 12) = false := by
  decide

/-- `EmitAlphaWritesCode` and `EmitColorWritesCode`: the highest address a code can have, and a byte the host also wrote. -/
theorem witness_EmitWritesCode :
    (baseWith fun c => { c with outBase := 0xFFFFFFFFFFFFFFF8 }).mem.wf ∧
    (baseWith fun c => { c with outBase := 0xFFFFFFFFFFFFFFF8 }).alphaAddr + 8 ≤ 2 ^ 64 ∧
    (baseWith fun c => { c with outBase := 0xFFFFFFFFFFFFFFF8 }).colorAddr + 8 ≤ 2 ^ 64 ∧
    (baseWith fun c => { c with outBase := 0xFFFFFFFFFFFFFFF8 }).platform.outFails = false ∧
    0x2000 ∈ ({ base with race := { base.race with hostOut := [0x2000] } } : State).race.hostOut := by decide

theorem witness_QuantizeAsksQuantizer : started.platform.quantMute = false := by decide

theorem witness_AlphaNotSentToQuantizer :
    ((0xFF332211#32).extractLsb' 0 24 = (0x00332211#32).extractLsb' 0 24) ∧ (after (exec .quantize started) id).isSome :=
  ⟨by decide, rfl⟩

/-- One state for each clause. -/
theorem witness_AdvanceEffect :
    let last (s : State) := s.cursor.mode = .block ∨ (s.blocksDone + 1).toNat = 4 * ((20 + 7) / 8) * ((12 + 7) / 8)
    last (at20x12 2 1 3 23) ∧ (¬last (at20x12 0 0 2 2) ∧ (at20x12 0 0 2 2).cursor.q.toNat < 3) ∧
    (¬last (at20x12 1 0 3 7) ∧ (at20x12 1 0 3 7).cursor.q = 3 ∧ 1 + 1 < (20 + 7) / 8) ∧
    (¬last (at20x12 2 0 3 11) ∧ (at20x12 2 0 3 11).cursor.q = 3 ∧ ¬2 + 1 < (20 + 7) / 8) := by decide

theorem witness_StorelessMicroOpFrame :
    (after (exec .gather started) id).isSome ∧ (after (exec .alphaPack started) id).isSome ∧
    (after (exec .quantize started) id).isSome ∧ (after (exec .advance started) id).isSome := ⟨rfl, rfl, rfl, rfl⟩

theorem witness_StoringMicroOpFrame :
    started.mem.wf ∧ (after (exec .emitAlpha started) id).isSome ∧ (after (exec .emitColor started) id).isSome :=
  ⟨by decide, rfl, rfl⟩

/-- The base case with failing ports, and a sub-block wholly outside the image. -/
theorem witness_UnansweredPortsStop :
    let s : State := { started with platform := { srcFails := true, outFails := true, quantMute := true } }
    s.cfg.srcBase.toNat + s.cfg.srcBytes ≤ 2 ^ 64 ∧ s.cfg.inImage (s.cfg.posOf s.origin 0) = true ∧ s.alphaAddr + 8 ≤ 2 ^ 64 ∧
    s.colorAddr + 8 ≤ 2 ^ 64 ∧ (∀ k, k < 16 → s.cfg.inImage (s.cfg.posOf (8, 0) k) = false) := by decide

theorem witness_SubBlockIndexInverse : 2 < (at20x12 2 1 3 23).cfg.tilesWide ∧ 3 < 4 := by decide

theorem witness_EveryPixelGatheredOnce : 7 < baseCfg.width.toNat ∧ 0 < baseCfg.height.toNat := by decide

/-- Two memories that differ outside the source region alone. -/
theorem witness_OutputDependsOnSourceAlone :
    ∀ a, base.cfg.inSource a = true → base.mem.read a = ({ base with mem := [(0x2000, 1)] } : State).mem.read a := by
  intro a h
  have ha : a < 0x1100 := (of_decide_eq_true (Bool.and_eq_true_iff.1 h).2 : a < 0x1000 + 4 * 8 * 8)
  have hn : ¬0x2000 = a := by omega
  simp [base, State.reset, Memory.read, hn]

/-! The invariant and the running command. -/

theorem witness_inv_base : base.Inv where
  memWf := by decide
  beforeWf := by decide
  blockWf := by decide
  phaseBusy := by decide
  errIff := by decide
  wposTwo := by decide
  lenMax := by decide
  doneMax := by decide
  running := fun h => absurd h (by decide)

theorem witness_running_started : started.Running where
  dimension := by decide
  regions := by decide
  length := by decide
  cursor := show (0 : Nat) < 1 ∧ (0 : Nat) < 1 ∧ (0 : Nat) = 0 by decide
  phase := show (0 : BitVec 4) = 0 from rfl
  recorded := fun _ h => absurd h (Nat.not_lt_zero _)

theorem witness_inv_started : started.Inv where
  memWf := by decide
  beforeWf := by decide
  blockWf := by decide
  phaseBusy := by decide
  errIff := by decide
  wposTwo := by decide
  lenMax := by decide
  doneMax := by decide
  running := fun _ => witness_running_started

theorem witness_right_started : started.Right := fun _ _ =>
  { pixels := fun h => absurd rfl h
    alpha := fun h => absurd h (by decide)
    color := fun h => absurd h (by decide)
    written := fun _ h => absurd h (Nat.not_lt_zero _)
    untilNow := fun _ _ _ => rfl }

/-- The invariant and `Right` speak of what they read, not of the pending turns. -/
theorem witness_inv_started_pending (e : HostEvent) : (pending e started).Inv :=
  { witness_inv_started with running := fun _ => { witness_running_started with } }

theorem witness_right_started_pending (e : HostEvent) : (pending e started).Right := fun h hu =>
  { witness_right_started h hu with }

theorem witness_AbortLeavesOldOrNewBytes :
    (pending .reset started).Inv ∧ (pending .reset started).Right ∧ (pending .reset started).status.state = .busy ∧
    (pending .reset started).Untouched ∧ (pending .reset started).agenda = [.host .reset] ∧
    (after (step (pending .reset started)) id).isSome :=
  ⟨witness_inv_started_pending _, witness_right_started_pending _, rfl, ⟨rfl, rfl⟩, rfl, rfl⟩

/-- `StepKeepsInvariant` and `StepKeepsOutputRight` at a running command. -/
theorem witness_StepKeepsOutputRight : started.Inv ∧ started.Right ∧ (after (step started) id).isSome :=
  ⟨witness_inv_started, witness_right_started, rfl⟩

theorem witness_RunningOperandsConstant :
    started.status.state = .busy ∧ (after (step started) id).isSome ∧ ∀ rest, started.agenda ≠ .host .reset :: rest :=
  ⟨rfl, rfl, fun _ h => nomatch h⟩

theorem witness_BlockWritesOnlyOutput :
    started.Inv ∧ (after (step started) id).isSome ∧ ∀ a v rest, started.agenda ≠ .host (.memWrite a v) :: rest :=
  ⟨witness_inv_started, rfl, fun _ _ _ h => nomatch h⟩

/-- The last output byte of a running command, and the first byte after it. -/
theorem witness_HostReadOldOrNew :
    (pending (.memRead 0x201F) started).Inv ∧ (pending (.memRead 0x201F) started).Right ∧
    (pending (.memRead 0x201F) started).Untouched ∧ (pending (.memRead 0x201F) started).inOutput (0x201F#64).toNat = true ∧
    (pending (.memRead 0x2020) started).inOutput (0x2020#64).toNat = false :=
  ⟨witness_inv_started_pending _, witness_right_started_pending _, ⟨rfl, rfl⟩, by decide, by decide⟩

/-- A host write that is not the first to the source region: outside it, and after one already. -/
theorem witness_CommandByteIsFixed :
    started.Inv ∧ started.status.state = .busy ∧ (after (step started) id).isSome ∧ started.cfg.inSource 0x1100 = false ∧
    ({ started with race := started.taint } : State).race.srcTainted = true ∧ 31 < started.outLen.toNat :=
  ⟨witness_inv_started, rfl, rfl, by decide, rfl, by decide⟩

/-- A played script with a sequencer turn between its two writes. -/
theorem witness_ScriptIsItsTransactions :
    let turns : List Turn := [.host (.port (.write 32 0x08 8)), .sequencer, .host (.port (.write 32 0x0C 8))]
    (∀ u ∈ turns, u = .sequencer ∨ u.transaction ≠ none) ∧
    turns.filterMap Turn.transaction = [Line.w .width 8, .w .height 8].flatMap expandLine := by decide

theorem witness_HostWriteEffect :
    (pending (.memWrite 0x2000 1) started).mem.wf ∧ started.status.state = .busy ∧ started.inOutput 0x2000 = true ∧
    started.cfg.inSource 0x2000 = false ∧ started.cfg.inSource 0x10FF = true := by decide

theorem witness_WaitPollsStatus :
    started.status.state ∉ [RunState.done, .error] ∧ (inState .done).status.state ∈ [RunState.done, .error] := by decide

/-- `OnlyListedTransitions` and `ErrorsOnlyFromCommandWrites`: steps from IDLE to BUSY and to ERROR. -/
theorem witness_OnlyListedTransitions :
    after (step (commanding 1 base)) (·.status.state) = some .busy ∧
    after (step (commanding 3 base)) (·.status.state) = some .error ∧ base.status.state ≠ .error := by decide

theorem witness_IgnSetOnlyByIgnoredWrite :
    started.status.ign = false ∧ after (step (commanding 0 started)) (·.status.ign) = some true := by decide

theorem witness_answering : started.Answering := ⟨rfl, rfl, rfl⟩

theorem witness_InvariantRulesOutFaults : started.Inv ∧ started.Answering := ⟨witness_inv_started, witness_answering⟩

theorem witness_EncodeRunsToCompletion :
    (commanding 1 base).Inv ∧ (commanding 1 base).Answering ∧ (commanding 1 base).status.state ≠ .busy ∧
    (commanding 1 base).agenda = [.host (.port (.write 32 0 1))] ∧ after (step (commanding 1 base)) (·.status.state) = some .busy :=
  ⟨{ witness_inv_base with running := fun h => absurd h (by decide) }, ⟨rfl, rfl, rfl⟩, by decide, rfl, by decide⟩

/-- ENCODE_BLOCK of a sub-block left of the image: every pixel is 0, whatever memory holds. -/
def outsideCfg : Cfg := { baseCfg with blockX := 0xFFFFFFFC }

/-- That command about to end: its colour code is in memory. -/
def ending : State :=
  { State.reset with
    cfg := outsideCfg
    outLen := 8
    cursor := { mode := .block, tx := 0, ty := 0, q := 0, wpos := 0 }
    status := { state := .busy, ign := false, phase := .advance, errCode := .none }
    mem := Memory.writeBytes [] 0x2000 (bytesBE64 (Config.Q (rgbs (Vector.replicate 16 0)) 0))
    race :=
      { State.reset.race with
        blockOut := Memory.writeBytes [] 0x2000 (bytesBE64 (Config.Q (rgbs (Vector.replicate 16 0)) 0)) } }

theorem test_outside_positions :
    ∀ k, k < 16 → outsideCfg.inImage (outsideCfg.posOf outsideCfg.blockCorner k) = false := by decide

theorem test_outside_pixels (m : Memory) : gatherAt outsideCfg m outsideCfg.blockCorner = Vector.replicate 16 0 := by
  ext k hk
  simp [gatherAt, fetch, test_outside_positions k hk]

theorem witness_nil_wf : Memory.wf [] := by decide

theorem witness_DoneMeansOutputComplete :
    ending.Inv ∧ ending.Right ∧ ending.Untouched ∧ ending.status.state = .busy ∧
    after (step ending) (·.status.state) = some .done := by
  refine ⟨⟨?_, witness_nil_wf, ?_, by decide, by decide, by decide, by decide, by decide, fun _ => ?_⟩, fun _ _ => ?_, ⟨rfl, rfl⟩,
    rfl, rfl⟩
  · exact Memory.writeBytes_wf _ _ _ witness_nil_wf (by decide)
  · exact Memory.writeBytes_wf _ _ _ witness_nil_wf (by decide)
  · exact ⟨by decide, by decide, by decide, ⟨rfl, rfl, rfl, rfl⟩, show (0 : BitVec 4) = 0 from rfl, fun _ _ _ => rfl⟩
  · have ho : ending.origin = outsideCfg.blockCorner := rfl
    have hc : ending.cfg = outsideCfg := rfl
    refine ⟨fun _ => ?_, fun h => absurd h (by decide), fun h => absurd h (by decide), ?_, fun j h h' => ?_⟩
    · rw [ho, hc, test_outside_pixels]; rfl
    · intro j hj
      have hj : j < 8 := hj
      have hm : ending.mem.read (0x2000 + j) = (bytesBE64 (Config.Q (rgbs (Vector.replicate 16 0)) 0)).getD j 0 := by
        refine (Memory.read_writeBytes [] 0x2000 _ witness_nil_wf (by decide) (0x2000 + j)).trans ?_
        rw [if_pos ⟨by omega, by simp only [bytesBE64_length]; omega⟩, Nat.add_sub_cancel_left]
      have hb : ending.outputByte j =
          (subBlockBytes Config.Q outsideCfg (gatherAt outsideCfg ending.mem outsideCfg.blockCorner)).getD (j % 8) 0 := rfl
      rw [hb, test_outside_pixels, Nat.mod_eq_of_lt hj]
      exact hm
    · have h1 : 8 ≤ j := h
      have h2 : j < 8 := h'
      omega

/-- At `ending`, which `witness_DoneMeansOutputComplete` shows has the invariant, all eight bytes are written. -/
theorem witness_CommandByteIsRight :
    ending.status.state = .busy ∧ 7 < ending.outLen.toNat ∧ 7 < ending.emitted ∧
    ending.cfg.outBase.toNat + 7 ∉ ending.race.hostOut := ⟨rfl, by decide, by decide, List.not_mem_nil⟩

end Sys2Proof.Tests
end

/-! PROOF. The two byte orders and the byte swap between them (00_scope.md R11): a code is fixed by its bytes, and the swap
reverses them. -/

namespace Sys2Proof.Machine

/-- A code's bytes from the least significant, by their index. -/
theorem bytesLE64_eq_map (v : Code) : bytesLE64 v = (List.range 8).map (byteOf v) := rfl

/-- The wire order counts the same bytes from the other end. -/
theorem bytesBE64_eq_map (v : Code) : bytesBE64 v = (List.range 8).map fun i => byteOf v (7 - i) := rfl

theorem bytesBE64_eq_reverse (v : Code) : bytesBE64 v = (bytesLE64 v).reverse := rfl

/-- Bit `j` of byte `i`. -/
theorem getLsbD_byteOf (v : Code) (i : Nat) {j : Nat} (hj : j < 8) : (byteOf v i).getLsbD j = v.getLsbD (8 * i + j) := by
  simp [byteOf, hj]

/-- A bit of a code is a bit of the byte it lies in. -/
theorem getLsbD_eq_byteOf (v : Code) (k : Nat) : v.getLsbD k = (byteOf v (k / 8)).getLsbD (k % 8) := by
  rw [getLsbD_byteOf v _ (Nat.mod_lt _ (by decide)), Nat.div_add_mod]

/-- Every bit lies in one of the eight bytes, so the list of the bytes fixes the code. -/
theorem bytesLE64_injective : Function.Injective bytesLE64 := by
  intro u v h
  rw [bytesLE64_eq_map, bytesLE64_eq_map] at h
  have hbyte : ∀ i ∈ List.range 8, byteOf u i = byteOf v i := List.map_inj_left.1 h
  refine BitVec.eq_of_getLsbD_eq fun k hk => ?_
  have hi : k / 8 ∈ List.range 8 := List.mem_range.2 (by omega)
  rw [getLsbD_eq_byteOf u, getLsbD_eq_byteOf v, hbyte _ hi]

/-- The swap puts byte `7 - i` where byte `i` stood: of the appended bytes, those below it and those above it drop out. -/
theorem byteOf_bswap64 (v : Code) {i : Nat} (hi : i < 8) : byteOf (bswap64 v) i = byteOf v (7 - i) := by
  rw [bswap64, byteOf]
  interval_cases i <;>
    simp (disch := omega) only [BitVec.extractLsb'_append_eq_of_le, BitVec.extractLsb'_append_eq_of_add_le,
      BitVec.extractLsb'_eq_self, Nat.reduceMul, Nat.reduceSub]

theorem bytesLE64_bswap64 (v : Code) : bytesLE64 (bswap64 v) = bytesBE64 v := by
  rw [bytesLE64_eq_map, bytesBE64_eq_map]
  exact List.map_congr_left fun _ hi => byteOf_bswap64 v (List.mem_range.1 hi)

/-- Settles O5: the lists are the model's own, the swap reverses the bytes, and a code is fixed by its bytes, so no other
code has the swapped ones. -/
theorem byteOrders : Obligations.ByteOrders := fun v =>
  ⟨rfl, bytesBE64_eq_reverse v, bytesLE64_bswap64 v, fun _ hu => bytesLE64_injective (hu.trans (bytesLE64_bswap64 v).symm)⟩

end Sys2Proof.Machine

/-! PROOF. The statements of 10_state.md: the STATUS word (R22), the reset values (R46), the transitions of STATE (R23), when
IGN is set (R24), and the invariant of the machine (R25, R26, R35 to R39, 41_tiler.md R135, 42_block_encoder.md R154). -/

namespace Sys2Proof.Machine

/-! ### The STATUS word and the reset values -/

/-- Settles O4: a field is what is left of the append once the fields below it are dropped and those above it cut off. -/
theorem statusWordFields : Obligations.StatusWordFields := by
  intro t
  rw [Status.word]
  refine ⟨?state, ?ign, ?bit3, ?phase, ?bit7, ?errCode, ?upper⟩
  case state => rw [BitVec.extractLsb'_append_eq_of_add_le (by decide), BitVec.extractLsb'_eq_self]
  case ign =>
    iterate 2 rw [BitVec.getLsbD_append]
    simp
  case bit3 =>
    iterate 3 rw [BitVec.getLsbD_append]
    simp
  case phase =>
    iterate 3 rw [BitVec.extractLsb'_append_eq_of_le (by decide)]
    rw [BitVec.extractLsb'_append_eq_of_add_le (by decide), BitVec.extractLsb'_eq_self]
  case bit7 =>
    iterate 5 rw [BitVec.getLsbD_append]
    simp
  case errCode =>
    iterate 5 rw [BitVec.extractLsb'_append_eq_of_le (by decide)]
    rw [BitVec.extractLsb'_append_eq_of_add_le (by decide), BitVec.extractLsb'_eq_self]
  case upper =>
    iterate 6 rw [BitVec.extractLsb'_append_eq_of_le (by decide)]
    exact BitVec.extractLsb'_eq_self

theorem State.readReg_reset (r : Reg) : State.reset.readReg r = 0 := by cases r <;> rfl

/-- An offset with a register reads that register, and one without reads 0 (30_encoding.md R87). -/
theorem State.readPort_reset (offset : Nat) : State.reset.readPort offset = 0 := by
  unfold State.readPort
  split
  · exact State.readReg_reset _
  · rfl

/-- Settles O6: every field is given by `State.reset`, and every port offset by the register at it. -/
theorem resetValues : Obligations.ResetValues :=
  ⟨rfl, State.readPort_reset, rfl, rfl, rfl, rfl, rfl, rfl, rfl, rfl, rfl, rfl, rfl⟩

theorem Memory.nil_wf : Memory.wf [] := by decide

theorem State.reset_inv : State.reset.Inv where
  memWf := Memory.nil_wf
  beforeWf := Memory.nil_wf
  blockWf := Memory.nil_wf
  phaseBusy := by decide
  errIff := by decide
  wposTwo := .inl rfl
  lenMax := by decide
  doneMax := by decide
  running := fun hbusy => absurd hbusy (by decide)

/-- Settles O55: no command runs at reset, so `Right` and the clauses on a running command say nothing there. -/
theorem invariantAtReset : Obligations.InvariantAtReset :=
  ⟨State.reset_inv, fun hbusy => absurd hbusy (by decide)⟩

/-! ### What a turn does to STATUS -/

theorem State.isBusy_iff {s : State} : s.isBusy = true ↔ s.status.state = .busy := beq_iff_eq

/-- A transition of STATE other than by a reset (10_state.md R23), or none. -/
def Transition (r r' : RunState) : Prop :=
  r' = r ∨ (r = .idle ∧ r' = .busy) ∨ (r = .idle ∧ r' = .error) ∨ (r = .done ∧ r' = .error) ∨ (r = .busy ∧ r' = .done) ∨
    (r = .done ∧ r' = .idle) ∨ (r = .error ∧ r' = .idle)

/-- Everything ADVANCE can do (41_tiler.md R137). -/
theorem execAdvance_cases {s t : State} (h : execAdvance s = .next t) :
    (s.lastBlock = true ∧
      t = { s with blocksDone := s.blocksDone + 1, status := { s.status with state := .done, phase := .none } }) ∨
    (s.lastBlock = false ∧
      t = { s with
        blocksDone := s.blocksDone + 1
        cursor := s.cursor.following s.cfg.tilesWide
        status := { s.status with phase := .gather } }) := by
  cases h
  split
  next hlast => exact .inl ⟨hlast, rfl⟩
  next hlast => exact .inr ⟨by simpa using hlast, rfl⟩

/-- A turn of the sequencer keeps IGN, and moves STATE only from BUSY to DONE. -/
theorem sequencerTurn_status {s t : State} (h : sequencerTurn s = .next t) :
    t.status.ign = s.status.ign ∧ (t.status.state = s.status.state ∨ s.status.state = .busy ∧ t.status.state = .done) := by
  rcases sequencerTurn_cases h with
    ⟨-, rfl⟩ | ⟨hbusy, ⟨-, h⟩ | ⟨-, h⟩ | ⟨-, h⟩ | ⟨-, h⟩ | ⟨-, h⟩ | ⟨-, h⟩⟩
  · exact ⟨rfl, .inl rfl⟩
  · rw [execGather_next h]; exact ⟨rfl, .inl rfl⟩
  · cases h; exact ⟨rfl, .inl rfl⟩
  · rw [(execEmitAlpha_next h).2]; exact ⟨rfl, .inl rfl⟩
  · rw [execQuantize_next h]; exact ⟨rfl, .inl rfl⟩
  · rw [(execEmitColor_next h).2]; exact ⟨rfl, .inl rfl⟩
  · rcases execAdvance_cases h with ⟨-, rfl⟩ | ⟨-, rfl⟩
    · exact ⟨rfl, .inr ⟨hbusy, rfl⟩⟩
    · exact ⟨rfl, .inl rfl⟩

@[simp] theorem State.poll_status (targets : List RunState) (gaps : List Nat) (s : State) :
    (s.poll targets gaps).status = s.status := by
  unfold State.poll
  split
  · rfl
  · cases gaps <;> rfl

@[simp] theorem State.hostWrite_status (a : BitVec 64) (v : Byte) (s : State) : (s.hostWrite a v).status = s.status := by
  unfold State.hostWrite
  split
  · rfl
  · split <;> rfl

@[simp] theorem State.hostRead_status (a : BitVec 64) (s : State) : (s.hostRead a).status = s.status := by
  unfold State.hostRead
  split <;> rfl

/-- A turn of the host changes STATUS only by a CMD write, by a write to a read-write register while BUSY, which sets IGN
(40_host_commands.md R104), or by a reset. -/
theorem hostTurn_status {e : HostEvent} {s t : State} (h : hostTurn e s = .next t) :
    t.status = s.status ∨ (e = .reset ∧ t = s.resetEvent) ∨
      ∃ offset v, e = .port (.write 32 offset v) ∧
        ((offset = 0 ∧ cmdWrite v s = .next t) ∨
          (s.status.state = .busy ∧ t = s.setIgn true ∧ ∃ r : Reg, r.access = .readWrite ∧ r.offset = offset)) := by
  cases e with
  | port a =>
    rcases portAccess_cases h with ⟨_, -, rfl⟩ | ⟨offset, v, rfl, hcmd | rfl | ⟨r, hrw, hoffset, rfl⟩⟩
    · exact .inl rfl
    · exact .inr (.inr ⟨offset, v, rfl, .inl hcmd⟩)
    · exact .inl rfl
    · unfold State.configWrite
      split
      next hbusy => exact .inr (.inr ⟨offset, v, rfl, .inr ⟨State.isBusy_iff.1 hbusy, rfl, r, hrw, hoffset⟩⟩)
      next => exact .inl rfl
  | wait targets gaps => cases h; exact .inl (State.poll_status ..)
  | memWrite a v => cases h; exact .inl (State.hostWrite_status ..)
  | memRead a => cases h; exact .inl (State.hostRead_status ..)
  | reset => cases h; exact .inr (.inl ⟨rfl, rfl⟩)
  | platform p => cases h; exact .inl rfl

/-! ### The transitions of STATE (R23) -/

theorem State.AfterCommand.transition {s t : State} (h : s.AfterCommand t) : Transition s.status.state t.status.state := by
  rcases h with ⟨-, rfl⟩ | ⟨herror, rfl | rfl⟩ | ⟨hstate, rfl | ⟨c, -, rfl⟩⟩ | ⟨hdone, rfl⟩ |
    ⟨hidle, -, m, ⟨-, rfl⟩ | ⟨-, rfl⟩⟩
  · simp [Transition]
  · simp [Transition]
  · simp [Transition, herror]
  · simp [Transition]
  · rcases hstate with hstate | hstate <;> simp [Transition, hstate]
  · simp [Transition, hdone]
  · simp [Transition, hidle]
  · simp [Transition, hidle]

/-- Every step moves STATE as R23 lists, or is a reset. -/
theorem step_transition {s t : State} (h : step s = .next t) :
    Transition s.status.state t.status.state ∨ (t.status.state = .idle ∧ ∃ rest, s.agenda = .host .reset :: rest) := by
  obtain ⟨rest, ⟨-, hturn⟩ | ⟨e, hagenda, hturn⟩⟩ := step_cases h
  · rcases (sequencerTurn_status hturn).2 with hsame | hended
    · exact .inl (.inl hsame)
    · exact .inl (.inr (.inr (.inr (.inr (.inl hended)))))
  · rcases hostTurn_status hturn with hsame | ⟨rfl, rfl⟩ | ⟨_, v, -, ⟨-, hcmd⟩ | ⟨-, rfl, -⟩⟩
    · exact .inl (.inl (congrArg Status.state hsame))
    · exact .inr ⟨rfl, rest, hagenda⟩
    · exact .inl (cmdWrite_after hcmd).transition
    · exact .inl (.inl rfl)

/-- Settles O50: `step_transition`, with the list written out. -/
theorem onlyListedTransitions : Obligations.OnlyListedTransitions := by
  intro s t h
  rcases step_transition h with hmove | hreset
  · unfold Transition at hmove
    tauto
  · tauto

/-! ### When IGN is set (R24) -/

/-- A CMD write leaves IGN set only where it is ignored: the dispatch clears it in IDLE and DONE (40_host_commands.md R103). -/
theorem State.AfterCommand.ignores_of_ign {s t : State} (h : s.AfterCommand t) (ht : t.status.ign = true) :
    s.status.state = .busy ∨ s.status.state = .error := by
  rcases h with ⟨hstate, -⟩ | ⟨herror, -⟩ | ⟨-, rfl | ⟨_, -, rfl⟩⟩ | ⟨-, rfl⟩ | ⟨-, -, _, ⟨-, rfl⟩ | ⟨-, rfl⟩⟩
  · exact hstate
  · exact .inr herror
  all_goals exact absurd ht (by simp)

/-- In ERROR the words of NOP and ACK_ERROR are not ignored (40_host_commands.md R117). -/
theorem cmdWrite_error_ign {v : Word} {s t : State} (h : cmdWrite v s = .next t) (herror : s.status.state = .error)
    (hs : s.status.ign = false) (ht : t.status.ign = true) : v ≠ 0x00000000 ∧ v ≠ 0x00000004 := by
  constructor
  · rintro rfl
    have hnop : cmdWrite 0x00000000 s = execNop s := rfl
    rw [hnop, execNop, State.dispatch_error herror] at h
    cases h
    exact absurd (hs.symm.trans ht) (by decide)
  · rintro rfl
    have hack : cmdWrite 0x00000004 s = execAckError s := rfl
    rw [hack, execAckError, State.dispatch_error herror] at h
    cases h
    exact absurd ht (by simp)

/-- Settles O52: of the turns that change STATUS only an ignored write sets IGN. -/
theorem ignSetOnlyByIgnoredWrite : Obligations.IgnSetOnlyByIgnoredWrite := by
  intro s t h hs ht
  have hchanged : ∀ b, s.status.ign = b → t.status.ign ≠ b := by rintro b rfl; simp [hs, ht]
  obtain ⟨rest, ⟨-, hturn⟩ | ⟨e, hagenda, hturn⟩⟩ := step_cases h
  · exact absurd (sequencerTurn_status hturn).1 (hchanged _ rfl)
  · rcases hostTurn_status hturn with hsame | ⟨-, rfl⟩ | ⟨offset, v, rfl, ⟨hoffset, hcmd⟩ | ⟨hbusy, -, hreg⟩⟩
    · exact absurd (congrArg Status.ign hsame) (hchanged _ rfl)
    · exact absurd rfl (hchanged _ hs)
    · refine ⟨offset, v, rest, hagenda, ?_⟩
      rcases (cmdWrite_after hcmd).ignores_of_ign ht with hbusy | herror
      · exact .inl ⟨hbusy, .inl hoffset⟩
      · exact .inr ⟨herror, hoffset, cmdWrite_error_ign hcmd herror hs ht⟩
    · exact ⟨offset, v, rest, hagenda, .inl ⟨hbusy, .inr hreg⟩⟩


/-! ### A running command: its cursor, its phase, and how far it has written -/

theorem State.cursorOk_image {s : State} (hmode : s.cursor.mode = .image) :
    s.CursorOk ↔ s.cursor.tx.toNat < s.cfg.tilesWide ∧ s.cursor.ty.toNat < s.cfg.tilesHigh ∧
      s.blocksDone.toNat = 4 * (s.cursor.ty.toNat * s.cfg.tilesWide + s.cursor.tx.toNat) + s.cursor.q.toNat := by
  simp only [State.CursorOk, hmode]

theorem State.cursorOk_block {s : State} (hmode : s.cursor.mode = .block) :
    s.CursorOk ↔ s.cursor.tx = 0 ∧ s.cursor.ty = 0 ∧ s.cursor.q = 0 ∧ s.blocksDone = 0 := by
  simp only [State.CursorOk, hmode]

/-- The sub-block in hand is one of the command's. -/
theorem State.CursorOk.blocksDone_lt {s : State} (h : s.CursorOk) : s.blocksDone.toNat < s.cfg.subBlocks s.cursor.mode := by
  cases hmode : s.cursor.mode with
  | block =>
    obtain ⟨-, -, -, hdone⟩ := (State.cursorOk_block hmode).1 h
    simp [hdone, Cfg.subBlocks]
  | image =>
    obtain ⟨htx, hty, hdone⟩ := (State.cursorOk_image hmode).1 h
    have hrows : (s.cursor.ty.toNat + 1) * s.cfg.tilesWide ≤ s.cfg.tilesHigh * s.cfg.tilesWide :=
      Nat.mul_le_mul_right _ hty
    have hq := s.cursor.q.isLt
    rw [Cfg.subBlocks, hdone, Nat.mul_assoc, Nat.mul_comm s.cfg.tilesWide]
    rw [Nat.add_one_mul] at hrows
    omega

theorem State.PhaseOk.phase_ne_none {s : State} (h : s.PhaseOk) : s.status.phase ≠ .none := by
  intro hnone
  simp [State.PhaseOk, hnone] at h

theorem State.phaseOk_gather {s : State} (hphase : s.status.phase = .gather) : s.PhaseOk ↔ s.cursor.wpos = 0 := by
  simp only [State.PhaseOk, hphase]

theorem State.phaseOk_alpha {s : State} (hphase : s.status.phase = .alphaPack ∨ s.status.phase = .emitAlpha) :
    s.PhaseOk ↔ s.cfg.hasAlpha = true ∧ s.cursor.wpos = 0 := by
  rcases hphase with hphase | hphase <;> simp only [State.PhaseOk, hphase]

theorem State.phaseOk_color {s : State}
    (hphase : s.status.phase = .quantize ∨ s.status.phase = .emitColor ∨ s.status.phase = .advance) :
    s.PhaseOk ↔ s.cursor.wpos = if s.cfg.hasAlpha then 8 else 0 := by
  rcases hphase with hphase | hphase | hphase <;> simp only [State.PhaseOk, hphase]

/-- In the colour phases the sub-block's bytes up to `wpos` are the alpha code, so eight are left (10_state.md R39). -/
theorem State.wpos_of_color {s : State} (h : s.cursor.wpos = if s.cfg.hasAlpha then 8 else 0) :
    s.cursor.wpos.toNat + 8 = s.cfg.blockBytes := by
  rcases s.cfg.blockBytes_cases with ⟨halpha, hB⟩ | ⟨halpha, hB⟩ <;> rw [h, hB, halpha] <;> rfl

theorem State.PhaseOk.wpos_cases {s : State} (h : s.PhaseOk) :
    s.cursor.wpos = 0 ∨ s.cursor.wpos = if s.cfg.hasAlpha then 8 else 0 := by
  cases hphase : s.status.phase with
  | none => exact absurd hphase h.phase_ne_none
  | gather => exact .inl ((State.phaseOk_gather hphase).1 h)
  | alphaPack => exact .inl ((State.phaseOk_alpha (.inl hphase)).1 h).2
  | emitAlpha => exact .inl ((State.phaseOk_alpha (.inr hphase)).1 h).2
  | quantize => exact .inr ((State.phaseOk_color (.inl hphase)).1 h)
  | emitColor => exact .inr ((State.phaseOk_color (.inr (.inl hphase))).1 h)
  | advance => exact .inr ((State.phaseOk_color (.inr (.inr hphase))).1 h)

theorem State.emitted_advance {s : State} (hphase : s.status.phase = .advance) :
    s.emitted = s.blocksDone.toNat * s.cfg.blockBytes + s.cfg.blockBytes := by rw [State.emitted, if_pos hphase]

theorem State.emitted_of_ne_advance {s : State} (hphase : s.status.phase ≠ .advance) :
    s.emitted = s.blocksDone.toNat * s.cfg.blockBytes + s.cursor.wpos.toNat := by rw [State.emitted, if_neg hphase]

/-- What is written ends within the current sub-block, and that within the output region (40_host_commands.md R112). -/
theorem State.Running.emitted_le {s : State} (h : s.Running) : s.emitted ≤ s.outLen.toNat := by
  have hblock : s.emitted ≤ (s.blocksDone.toNat + 1) * s.cfg.blockBytes := by
    rw [Nat.add_one_mul]
    by_cases hphase : s.status.phase = .advance
    · rw [State.emitted_advance hphase]
    · rw [State.emitted_of_ne_advance hphase]
      rcases h.phase.wpos_cases with hwpos | hwpos
      · simp [hwpos]
      · have := State.wpos_of_color hwpos
        omega
  calc s.emitted ≤ (s.blocksDone.toNat + 1) * s.cfg.blockBytes := hblock
    _ ≤ s.cfg.subBlocks s.cursor.mode * s.cfg.blockBytes := Nat.mul_le_mul_right _ h.cursor.blocksDone_lt
    _ = s.outLen.toNat := by rw [h.length, s.cfg.reqLen_eq]

/-- The OVERLAP check keeps the two regions apart (40_host_commands.md R115). -/
theorem State.Running.not_inSource {s : State} (h : s.Running) {j : Nat} (hj : j < s.outLen.toNat) :
    s.cfg.inSource (s.cfg.outBase.toNat + j) = false := by
  obtain ⟨-, -, -, -, -, -, hapart⟩ := Cfg.checks_passed h.dimension h.regions
  rw [← h.length] at hapart
  simp only [Cfg.inSource, Bool.and_eq_false_iff, decide_eq_false_iff_not]
  omega

/-- A byte already written lies in the output region. -/
theorem State.Running.inOutput_of_emitted {s : State} (h : s.Running) {j : Nat} (hj : j < s.emitted) :
    s.inOutput (s.cfg.outBase.toNat + j) = true := by
  have := h.emitted_le
  simp only [State.inOutput, Bool.and_eq_true, decide_eq_true_eq]
  omega

/-! ### The invariant from a running command, and outside one -/

/-- While BUSY the bounds of the invariant follow from what holds of a running command. -/
theorem State.Running.inv {s : State} (h : s.Running) (hbusy : s.status.state = .busy) (herr : s.status.errCode = .none)
    (hmem : s.mem.wf) (hbefore : s.race.memBefore.wf) (hblock : s.race.blockOut.wf) : s.Inv where
  memWf := hmem
  beforeWf := hbefore
  blockWf := hblock
  phaseBusy := by simp [h.phase.phase_ne_none, hbusy]
  errIff := by simp [herr, hbusy]
  wposTwo := by
    rcases h.phase.wpos_cases with hwpos | hwpos
    · exact .inl hwpos
    · split at hwpos
      · exact .inr hwpos
      · exact .inl hwpos
  lenMax := h.length ▸ s.cfg.reqLen_le _
  doneMax := h.cursor.blocksDone_lt.le.trans (s.cfg.subBlocks_le _)
  running := fun _ => h

theorem State.Inv.errCode_none {s : State} (h : s.Inv) (hstate : s.status.state ≠ .error) : s.status.errCode = .none := by
  by_contra herr
  exact hstate (h.errIff.1 herr)

theorem State.Inv.phase_none {s : State} (h : s.Inv) (hstate : s.status.state ≠ .busy) : s.status.phase = .none :=
  h.phaseBusy.2 hstate

/-- The invariant does not speak of IGN, the datapath, the platform, the pending turns or what the host has seen. -/
theorem State.Inv.of_unspoken {s : State} (h : s.Inv) (ign : Bool) (pix : Vector Word 16) (acc ccode : Code)
    (platform : Platform) (agenda : List Turn) (seen : List Seen) :
    ({ s with
      status := { s.status with ign := ign }
      pix := pix, acc := acc, ccode := ccode, platform := platform, agenda := agenda, seen := seen } : State).Inv :=
  { h with running := fun hbusy => { h.running hbusy with } }

/-! ### Commands -/

theorem State.Inv.setIgn {s : State} (h : s.Inv) (b : Bool) : (s.setIgn b).Inv :=
  h.of_unspoken b s.pix s.acc s.ccode s.platform s.agenda s.seen

/-- A move to a state other than BUSY keeps the invariant, if ERR_CODE and OUT_LEN go with it. -/
theorem State.Inv.moved {s : State} (h : s.Inv) (hs : s.status.state ≠ .busy) {r : RunState} {c : ErrCode} {len : BitVec 64}
    (hr : r ≠ .busy) (hc : c ≠ .none ↔ r = .error) (hlen : len.toNat ≤ 2 ^ 32) (ign : Bool) :
    ({ s with
      status := { s.status with state := r, errCode := c, ign := ign }
      outLen := len } : State).Inv where
  memWf := h.memWf
  beforeWf := h.beforeWf
  blockWf := h.blockWf
  phaseBusy := by simp [h.phase_none hs, hr]
  errIff := hc
  wposTwo := h.wposTwo
  lenMax := hlen
  doneMax := h.doneMax
  running := fun hbusy => absurd hbusy hr

theorem Cfg.toNat_reqLen (c : Cfg) (m : Mode) : (BitVec.ofNat 64 (c.reqLen m)).toNat = c.reqLen m := by
  have := c.reqLen_le m
  rw [BitVec.toNat_ofNat, Nat.mod_eq_of_lt (by omega)]

/-- A command just started has its cursor at the first sub-block and has written nothing (40_host_commands.md R116). -/
theorem State.init_running {m : Mode} {s : State} (hdim : s.cfg.badDimension = false)
    (hregions : s.cfg.regionError (s.cfg.reqLen m) = .none) (hlen : s.outLen.toNat = s.cfg.reqLen m) : (s.init m).Running where
  dimension := hdim
  regions := hregions
  length := hlen
  cursor := by
    obtain ⟨hw, hh, -⟩ := Cfg.checks_passed hdim hregions
    cases m with
    | block => exact (State.cursorOk_block rfl).2 ⟨rfl, rfl, rfl, rfl⟩
    | image =>
      have htw : 0 < s.cfg.tilesWide := by simp only [Cfg.tilesWide, ceilDiv]; omega
      have hth : 0 < s.cfg.tilesHigh := by simp only [Cfg.tilesHigh, ceilDiv]; omega
      exact (State.cursorOk_image rfl).2 ⟨htw, hth, by simp⟩
  phase := (State.phaseOk_gather rfl).2 rfl
  recorded := fun j hj => by
    rw [State.emitted_of_ne_advance (by simp)] at hj
    simp at hj

/-- Every CMD write keeps the invariant. -/
theorem State.Inv.afterCommand {s t : State} (h : s.Inv) (hafter : s.AfterCommand t) : t.Inv := by
  rcases hafter with ⟨-, rfl⟩ | ⟨herror, rfl | rfl⟩ | ⟨hstate, rfl | ⟨c, hc, rfl⟩⟩ | ⟨hdone, rfl⟩ |
    ⟨hidle, hdim, m, ⟨hregions, rfl⟩ | ⟨hregions, rfl⟩⟩
  · exact h.setIgn true
  · exact h
  · exact h.moved (by simp [herror]) (by decide) (by decide) h.lenMax false
  · exact h.setIgn false
  · have hs : s.status.state ≠ .busy := by rcases hstate with hstate | hstate <;> simp [hstate]
    exact h.moved hs (by decide) (by simp [hc]) h.lenMax false
  · have herr := h.errCode_none (by simp [hdone])
    exact h.moved (by simp [hdone]) (by decide) (by simp [herr]) h.lenMax false
  · have hlen := (s.cfg.toNat_reqLen m).trans_le (s.cfg.reqLen_le m)
    exact h.moved (by simp [hidle]) (by decide) (by simp [hregions]) hlen false
  · have herr := h.errCode_none (by simp [hidle])
    exact State.Running.inv (State.init_running hdim hregions (s.cfg.toNat_reqLen m)) rfl herr h.memWf h.memWf Memory.nil_wf

/-! ### The host's turns -/

theorem State.Inv.configWrite {s : State} (h : s.Inv) (r : Reg) (v : Word) : (s.configWrite r v).Inv := by
  unfold State.configWrite
  split
  next => exact h.setIgn true
  next hbusy => exact { h with running := fun hb => absurd (State.isBusy_iff.2 hb) hbusy }

theorem State.Inv.portAccess {a : Access} {s t : State} (h : s.Inv) (haccess : portAccess a s = .next t) : t.Inv := by
  rcases portAccess_cases haccess with ⟨_, -, rfl⟩ | ⟨_, v, -, ⟨-, hcmd⟩ | rfl | ⟨r, -, -, rfl⟩⟩
  · exact h.of_unspoken s.status.ign s.pix s.acc s.ccode s.platform s.agenda _
  · exact h.afterCommand (cmdWrite_after hcmd)
  · exact h
  · exact h.configWrite r v

theorem State.Inv.poll {s : State} (h : s.Inv) (targets : List RunState) (gaps : List Nat) : (s.poll targets gaps).Inv := by
  have hkept := fun agenda seen => h.of_unspoken s.status.ign s.pix s.acc s.ccode s.platform agenda seen
  unfold State.poll
  split
  · exact hkept _ _
  · cases gaps
    · exact hkept _ _
    · exact hkept _ _

theorem State.Inv.hostRead {s : State} (h : s.Inv) (a : BitVec 64) : (s.hostRead a).Inv := by
  unfold State.hostRead
  split
  · exact { h with running := fun hbusy => { h.running hbusy with } }
  · exact h.of_unspoken s.status.ign s.pix s.acc s.ccode s.platform s.agenda _

/-- Everything a host write can do: it writes one byte of memory and may add its address to the record of such writes; while
BUSY that address is recorded if it is one of an output byte (20_memory.md R76). -/
theorem State.hostWrite_cases (a : BitVec 64) (v : Byte) (s : State) :
    ∃ (w : Byte) (r : Race), s.hostWrite a v = { s with mem := s.mem.write a.toNat w, race := r } ∧
      r.memBefore = s.race.memBefore ∧ r.blockOut = s.race.blockOut ∧ s.race.hostOut ⊆ r.hostOut ∧
      (s.status.state = .busy → s.inOutput a.toNat = true → s.cfg.inSource a.toNat = true ∨ a.toNat ∈ r.hostOut) := by
  unfold State.hostWrite
  split
  next hsource =>
    exact ⟨v, s.taint, rfl, by simp, by simp, by simp, fun _ _ => .inl (Bool.and_eq_true_iff.1 hsource).2⟩
  next =>
    split
    next => exact ⟨_, _, rfl, rfl, rfl, List.subset_cons_self .., fun _ _ => .inr List.mem_cons_self⟩
    next hout =>
      refine ⟨v, s.race, rfl, rfl, rfl, fun _ hb => hb, fun hbusy hin => absurd ?_ hout⟩
      rw [State.isBusy_iff.2 hbusy, hin]
      rfl

theorem State.Inv.hostWrite {s : State} (h : s.Inv) (a : BitVec 64) (v : Byte) : (s.hostWrite a v).Inv := by
  obtain ⟨w, r, hwrite, hbefore, hblock, hkept, hnew⟩ := s.hostWrite_cases a v
  rw [hwrite]
  refine { h with
    memWf := Memory.write_wf _ _ _ h.memWf a.isLt
    beforeWf := hbefore ▸ h.beforeWf
    blockWf := hblock ▸ h.blockWf
    running := fun hbusy => { h.running hbusy with recorded := fun j hj hhost => ?_ } }
  have hrunning := h.running hbusy
  have hj : j < s.emitted := hj
  have hother : a.toNat ≠ s.cfg.outBase.toNat + j := by
    intro ha
    rcases hnew hbusy (ha ▸ hrunning.inOutput_of_emitted hj) with hsource | hhost'
    · rw [ha, hrunning.not_inSource (hj.trans_le hrunning.emitted_le)] at hsource
      exact absurd hsource (by decide)
    · exact hhost (ha ▸ hhost')
  calc (s.mem.write a.toNat w).read (s.cfg.outBase.toNat + j)
      = s.mem.read (s.cfg.outBase.toNat + j) := Memory.read_write_other _ _ _ _ h.memWf hother
    _ = s.race.blockOut.read (s.cfg.outBase.toNat + j) := hrunning.recorded j hj fun hin => hhost (hkept hin)
    _ = r.blockOut.read (s.cfg.outBase.toNat + j) := by rw [hblock]

/-- What a reset leaves in memory is canonical: it only writes bytes inside the address space. -/
theorem State.abortedMem_wf {s : State} (h : s.mem.wf) : s.abortedMem.wf := by
  unfold State.abortedMem
  refine List.foldlRecOn _ _ h fun m hm j _ => ?_
  split
  next haddr => exact Memory.write_wf _ _ _ hm haddr
  next => exact hm

theorem State.Inv.resetEvent {s : State} (h : s.Inv) : s.resetEvent.Inv :=
  { State.reset_inv with
    memWf := by
      simp only [State.resetEvent]
      split
      · exact State.abortedMem_wf h.memWf
      · exact h.memWf
    running := fun hbusy => nomatch hbusy }

theorem State.Inv.hostTurn {e : HostEvent} {s t : State} (h : s.Inv) (hturn : hostTurn e s = .next t) : t.Inv := by
  cases e with
  | port a => exact h.portAccess hturn
  | wait targets gaps => cases hturn; exact h.poll targets gaps
  | memWrite a v => cases hturn; exact h.hostWrite a v
  | memRead a => cases hturn; exact h.hostRead a
  | reset => cases hturn; exact h.resetEvent
  | platform p => cases hturn; exact h.of_unspoken s.status.ign s.pix s.acc s.ccode p s.agenda s.seen

/-! ### The micro-operations -/

/-- A micro-operation that stores nothing and ends in a phase before ADVANCE keeps the invariant, if that phase fits. -/
theorem State.Inv.phaseStep {s : State} (h : s.Inv) (hbusy : s.status.state = .busy) (pix : Vector Word 16) (acc ccode : Code)
    {p : Phase} (hs : s.status.phase ≠ .advance) (hp : p ≠ .advance)
    (hphase : ({ s with status := { s.status with phase := p } } : State).PhaseOk) :
    ({ s with pix := pix, acc := acc, ccode := ccode, status := { s.status with phase := p } } : State).Inv := by
  have hrunning := h.running hbusy
  refine State.Running.inv ?_ hbusy (h.errCode_none (by simp [hbusy])) h.memWf h.beforeWf h.blockWf
  refine { hrunning with phase := hphase, recorded := fun j hj => hrunning.recorded j ?_ }
  rw [State.emitted_of_ne_advance hp] at hj
  rw [State.emitted_of_ne_advance hs]
  exact hj

/-- A micro-operation that writes a code where the written bytes end, and counts its bytes as written, keeps the invariant. -/
theorem State.Inv.writeStep {s : State} (h : s.Inv) (hbusy : s.status.state = .busy) {a : Nat} {bs : List Byte}
    (haddr : a + bs.length ≤ 2 ^ 64) (hat : a = s.cfg.outBase.toNat + s.emitted) {w : BitVec 4} {p : Phase} :
    let t : State := { s.writeCode a bs with
      cursor := { s.cursor with wpos := w }, status := { s.status with phase := p } }
    t.emitted = s.emitted + bs.length → t.PhaseOk → t.Inv := by
  intro t hemitted hphase
  have hrunning := h.running hbusy
  refine State.Running.inv ?_ hbusy (h.errCode_none (by simp [hbusy])) (s.writeCode_wf a bs h.memWf haddr) h.beforeWf
    (s.writeCode_blockOut_wf a bs h.blockWf haddr)
  refine { hrunning with
    phase := hphase
    recorded := fun j hj hhost => s.writeCode_recorded a _ bs h.memWf h.blockWf haddr hhost ?_ }
  change j < t.emitted at hj
  change (a ≤ s.cfg.outBase.toNat + j ∧ s.cfg.outBase.toNat + j < a + bs.length) ∨ _
  by_cases hold : j < s.emitted
  · exact .inr (hrunning.recorded j hold hhost)
  · exact .inl (by omega)

theorem State.Inv.gather {s t : State} (h : s.Inv) (hbusy : s.status.state = .busy) (hphase : s.status.phase = .gather)
    (hexec : execGather s = .next t) : t.Inv := by
  have hwpos := (State.phaseOk_gather hphase).1 (h.running hbusy).phase
  have hs : s.status.phase ≠ .advance := by simp [hphase]
  rw [execGather_next hexec]
  cases halpha : s.cfg.hasAlpha with
  | true =>
    rw [Cfg.afterGather, if_pos halpha]
    exact h.phaseStep hbusy s.gathered s.acc s.ccode hs (by decide) ((State.phaseOk_alpha (.inl rfl)).2 ⟨halpha, hwpos⟩)
  | false =>
    rw [Cfg.afterGather, if_neg (by simp [halpha])]
    exact h.phaseStep hbusy s.gathered s.acc s.ccode hs (by decide)
      ((State.phaseOk_color (.inl rfl)).2 (by simp [halpha, hwpos]))

theorem State.Inv.alphaPack {s t : State} (h : s.Inv) (hbusy : s.status.state = .busy) (hphase : s.status.phase = .alphaPack)
    (hexec : execAlphaPack s = .next t) : t.Inv := by
  have halpha := (State.phaseOk_alpha (.inl hphase)).1 (h.running hbusy).phase
  cases hexec
  exact h.phaseStep hbusy s.pix (alphaCode s.pix) s.ccode (by simp [hphase]) (by decide)
    ((State.phaseOk_alpha (.inr rfl)).2 halpha)

theorem State.Inv.quantize {s t : State} (h : s.Inv) (hbusy : s.status.state = .busy) (hphase : s.status.phase = .quantize)
    (hexec : execQuantize s = .next t) : t.Inv := by
  have hwpos := (State.phaseOk_color (.inl hphase)).1 (h.running hbusy).phase
  rw [execQuantize_next hexec]
  exact h.phaseStep hbusy s.pix s.acc _ (by simp [hphase]) (by decide) ((State.phaseOk_color (.inr (.inl rfl))).2 hwpos)

/-- EMIT_ALPHA writes the first eight of the sub-block's sixteen bytes. -/
theorem State.Inv.emitAlpha {s t : State} (h : s.Inv) (hbusy : s.status.state = .busy) (hphase : s.status.phase = .emitAlpha)
    (hexec : execEmitAlpha s = .next t) : t.Inv := by
  obtain ⟨halpha, hwpos⟩ := (State.phaseOk_alpha (.inr hphase)).1 (h.running hbusy).phase
  obtain ⟨haddr, rfl⟩ := execEmitAlpha_next hexec
  have hB : s.cfg.blockBytes = 16 := by simp [Cfg.blockBytes, halpha]
  have hemitted : s.emitted = s.blocksDone.toNat * 16 := by
    rw [State.emitted_of_ne_advance (by simp [hphase]), hB, hwpos]
    rfl
  refine h.writeStep hbusy haddr (by rw [hemitted]; rfl) ?_ ((State.phaseOk_color (.inl rfl)).2 (by simp [halpha]))
  rw [State.emitted_of_ne_advance (by simp), hemitted, ← hB]
  rfl

/-- EMIT_COLOR writes the last eight bytes of the sub-block. -/
theorem State.Inv.emitColor {s t : State} (h : s.Inv) (hbusy : s.status.state = .busy) (hphase : s.status.phase = .emitColor)
    (hexec : execEmitColor s = .next t) : t.Inv := by
  have hwpos := (State.phaseOk_color (.inr (.inl hphase))).1 (h.running hbusy).phase
  obtain ⟨haddr, rfl⟩ := execEmitColor_next hexec
  have hemitted := State.emitted_of_ne_advance (s := s) (by simp [hphase])
  refine h.writeStep hbusy haddr (by rw [hemitted, State.colorAddr, Nat.add_assoc]) ?_
    ((State.phaseOk_color (.inr (.inr rfl))).2 hwpos)
  rw [State.emitted_advance rfl, hemitted, bytesBE64_length, Nat.add_assoc, State.wpos_of_color hwpos]
  rfl

/-! ### ADVANCE -/

theorem State.CursorOk.toNat_blocksDone_succ {s : State} (h : s.CursorOk) :
    (s.blocksDone + 1).toNat = s.blocksDone.toNat + 1 := by
  have := h.blocksDone_lt.trans_le (s.cfg.subBlocks_le _)
  bv_omega

theorem Cursor.following_sub {c : Cursor} {tw : Nat} (hq : c.q.toNat < 3) :
    c.following tw = { c with q := c.q + 1, wpos := 0 } := if_pos hq

theorem Cursor.following_column {c : Cursor} {tw : Nat} (hq : ¬c.q.toNat < 3) (htx : c.tx.toNat + 1 < tw) :
    c.following tw = { c with q := 0, tx := c.tx + 1, wpos := 0 } := by
  rw [Cursor.following, if_neg hq, if_pos (by omega)]

theorem Cursor.following_row {c : Cursor} {tw : Nat} (hq : ¬c.q.toNat < 3) (htx : ¬c.tx.toNat + 1 < tw) :
    c.following tw = { c with q := 0, tx := 0, ty := c.ty + 1, wpos := 0 } := by
  rw [Cursor.following, if_neg hq, if_neg (by omega)]

@[simp] theorem Cursor.following_mode (c : Cursor) (tw : Nat) : (c.following tw).mode = c.mode := by
  unfold Cursor.following
  split
  · rfl
  · split <;> rfl

@[simp] theorem Cursor.following_wpos (c : Cursor) (tw : Nat) : (c.following tw).wpos = 0 := by
  unfold Cursor.following
  split
  · rfl
  · split <;> rfl

theorem State.lastBlock_eq_false {s : State} (h : s.lastBlock = false) :
    s.cursor.mode = .image ∧ (s.blocksDone + 1).toNat ≠ 4 * s.cfg.tilesWide * s.cfg.tilesHigh := by
  obtain ⟨hmode, hmore⟩ := Bool.or_eq_false_iff.1 h
  refine ⟨?_, ne_of_beq_false hmore⟩
  cases hm : s.cursor.mode with
  | image => rfl
  | block => rw [hm] at hmode; cases hmode

/-- After a sub-block that is not the last the cursor is at the next index of the grid (41_tiler.md R133, R135). -/
theorem State.CursorOk.following {s : State} (h : s.CursorOk) (hlast : s.lastBlock = false) :
    ({ s with blocksDone := s.blocksDone + 1, cursor := s.cursor.following s.cfg.tilesWide } : State).CursorOk := by
  have hsucc := h.toNat_blocksDone_succ
  obtain ⟨himage, hmore⟩ := State.lastBlock_eq_false hlast
  obtain ⟨htx, hty, hdone⟩ := (State.cursorOk_image himage).1 h
  have hq4 := s.cursor.q.isLt
  by_cases hq : s.cursor.q.toNat < 3
  · rw [Cursor.following_sub hq]
    have hq' : (s.cursor.q + 1).toNat = s.cursor.q.toNat + 1 := by bv_omega
    refine (State.cursorOk_image (by exact himage)).2 ⟨htx, hty, ?_⟩
    simp only [hsucc, hq', hdone, Nat.add_assoc]
  · have hq3 : s.cursor.q.toNat = 3 := by omega
    rw [hq3] at hdone
    by_cases hcolumn : s.cursor.tx.toNat + 1 < s.cfg.tilesWide
    · rw [Cursor.following_column hq hcolumn]
      have hwide := s.cfg.tilesWide_le
      have htx' : (s.cursor.tx + 1).toNat = s.cursor.tx.toNat + 1 := by bv_omega
      refine (State.cursorOk_image (by exact himage)).2 ⟨htx'.trans_lt hcolumn, hty, ?_⟩
      show (s.blocksDone + 1).toNat = 4 * (s.cursor.ty.toNat * s.cfg.tilesWide + (s.cursor.tx + 1).toNat) + 0
      omega
    · rw [Cursor.following_row hq hcolumn]
      have hindex : s.blocksDone.toNat + 1 = 4 * ((s.cursor.ty.toNat + 1) * s.cfg.tilesWide) := by
        rw [Nat.add_one_mul s.cursor.ty.toNat]
        omega
      have hrow : s.cursor.ty.toNat + 1 < s.cfg.tilesHigh := by
        refine Nat.lt_of_le_of_ne hty fun heq => hmore ?_
        rw [hsucc, hindex, heq, Nat.mul_assoc, Nat.mul_comm s.cfg.tilesWide]
      have hhigh := s.cfg.tilesHigh_le
      have hty' : (s.cursor.ty + 1).toNat = s.cursor.ty.toNat + 1 := by bv_omega
      refine (State.cursorOk_image (by exact himage)).2 ⟨?_, hty'.trans_lt hrow, ?_⟩
      · exact Nat.zero_lt_of_lt htx
      · show (s.blocksDone + 1).toNat = 4 * ((s.cursor.ty + 1).toNat * s.cfg.tilesWide + 0) + 0
        simp only [hsucc, hty', hindex, Nat.add_zero]

/-- ADVANCE ends the command, or goes on with one more sub-block finished, whose bytes were already written. -/
theorem State.Inv.advance {s t : State} (h : s.Inv) (hbusy : s.status.state = .busy) (hphase : s.status.phase = .advance)
    (hexec : execAdvance s = .next t) : t.Inv := by
  have hrunning := h.running hbusy
  have hsucc := hrunning.cursor.toNat_blocksDone_succ
  have herr := h.errCode_none (by simp [hbusy])
  rcases execAdvance_cases hexec with ⟨-, rfl⟩ | ⟨hlast, rfl⟩
  · exact { h with
      phaseBusy := by simp
      errIff := by simp [herr]
      doneMax := hsucc.trans_le (hrunning.cursor.blocksDone_lt.trans_le (s.cfg.subBlocks_le _))
      running := fun hbusy => nomatch hbusy }
  · refine State.Running.inv ?_ hbusy herr h.memWf h.beforeWf h.blockWf
    refine { hrunning with
      regions := by simpa using hrunning.regions
      length := by simpa using hrunning.length
      cursor := hrunning.cursor.following hlast
      phase := (State.phaseOk_gather rfl).2 (by simp)
      recorded := fun j hj => hrunning.recorded j ?_ }
    rw [State.emitted_of_ne_advance (by simp)] at hj
    rw [State.emitted_advance hphase, ← Nat.add_one_mul, ← hsucc]
    simpa using hj

/-! ### A step -/

theorem State.Inv.sequencerTurn {s t : State} (h : s.Inv) (hturn : sequencerTurn s = .next t) : t.Inv := by
  rcases sequencerTurn_cases hturn with ⟨-, rfl⟩ | ⟨hbusy, ⟨hphase, hexec⟩ | ⟨hphase, hexec⟩ | ⟨hphase, hexec⟩ |
    ⟨hphase, hexec⟩ | ⟨hphase, hexec⟩ | ⟨hphase, hexec⟩⟩
  · exact h
  · exact h.gather hbusy hphase hexec
  · exact h.alphaPack hbusy hphase hexec
  · exact h.emitAlpha hbusy hphase hexec
  · exact h.quantize hbusy hphase hexec
  · exact h.emitColor hbusy hphase hexec
  · exact h.advance hbusy hphase hexec

/-- Settles O56: the turn is taken off the agenda, of which the invariant does not speak, and each agent's turn keeps it. -/
theorem stepKeepsInvariant : Obligations.StepKeepsInvariant := by
  intro s t h hstep
  have htaken := fun rest => h.of_unspoken s.status.ign s.pix s.acc s.ccode s.platform rest s.seen
  obtain ⟨rest, ⟨-, hturn⟩ | ⟨e, -, hturn⟩⟩ := step_cases hstep
  · exact (htaken rest).sequencerTurn hturn
  · exact (htaken rest).hostTurn hturn

end Sys2Proof.Machine

/-! PROOF. The statements of 20_memory.md: which accesses are refused or stop (R69, R79), who writes which bytes (R60, R76), what
a host read answers (R74, R75), and the output of a running command being right (R73, 41_tiler.md R136, R140, R142). -/

namespace Sys2Proof.Machine

/-! ### Port accesses (R69) -/

theorem portAccess_illegal {a : Access} (h : a.legal = false) (s : State) : portAccess a s = .refused .illegalPortAccess := by
  simp [portAccess, h]

/-- Settles O14: `Access.legal` tests the width and the offset before anything else of the access is looked at. -/
theorem illegalAccessRefused : Obligations.IllegalAccessRefused := by
  intro s width offset v rest hillegal
  have hlegal : (width == 32 && offset % 4 == 0) = false := by simpa [imp_iff_not_or] using hillegal
  exact ⟨fun ha => (step_host ha).trans (portAccess_illegal (a := .write width offset v) hlegal _),
    fun ha => (step_host ha).trans (portAccess_illegal (a := .read width offset) hlegal _)⟩

/-! ### The pixels of the source region (R64) -/

/-- The four bytes of an in-bounds pixel lie in the source region. -/
theorem Cfg.pixelAddr_bounds {c : Cfg} {p : Int × Int} (hp : c.inImage p = true) :
    c.srcBase.toNat ≤ c.pixelAddr p ∧ c.pixelAddr p + 4 ≤ c.srcBase.toNat + c.srcBytes := by
  obtain ⟨hx, hxw, hy, hyh⟩ := (c.inImage_iff p).1 hp
  obtain ⟨x, hx⟩ := Int.eq_ofNat_of_zero_le hx
  obtain ⟨y, hy⟩ := Int.eq_ofNat_of_zero_le hy
  rw [hx] at hxw
  rw [hy] at hyh
  have hrow : (y + 1) * c.w ≤ c.h * c.w := Nat.mul_le_mul_right _ (by omega)
  have hindex : (p.2 * c.w + p.1).toNat = y * c.w + x := by rw [hx, hy]; norm_cast
  rw [Nat.add_one_mul, Nat.mul_comm c.h] at hrow
  rw [Cfg.pixelAddr, hindex, Cfg.srcBytes, Nat.mul_assoc]
  omega

/-- The addresses GATHER reads are those of the in-bounds pixels of the sub-block. -/
theorem mem_gatherReads {c : Cfg} {o : Int × Int} {a : Nat} :
    a ∈ gatherReads c o ↔ ∃ k < 16, c.inImage (c.posOf o k) = true ∧ c.pixelAddr (c.posOf o k) = a := by
  simp [gatherReads, and_assoc]

/-- A gather reads nothing outside the source region (41_tiler.md R142). -/
theorem gatherAt_congr {c : Cfg} {m m' : Memory} (hsource : ∀ a, c.inSource a = true → m'.read a = m.read a) (o : Int × Int) :
    gatherAt c m' o = gatherAt c m o := by
  have hfetch : ∀ p, fetch c m' p = fetch c m p := by
    intro p
    unfold fetch
    split
    next hp =>
      have hbounds := Cfg.pixelAddr_bounds hp
      have hread : ∀ a, c.pixelAddr p ≤ a → a < c.pixelAddr p + 4 → m'.read a = m.read a := fun a ha ha' =>
        hsource a (by simp only [Cfg.inSource, Bool.and_eq_true, decide_eq_true_eq]; omega)
      simp (disch := omega) only [Memory.readPixel_eq, hread]
    next => rfl
  simp only [gatherAt, hfetch]

/-! ### Ports that do not answer (R79, 70_reset_and_hazards.md R220) -/

theorem State.emit_busError {s : State} {a : Nat} {bs : List Byte} (ha : a + bs.length ≤ 2 ^ 64)
    (hfails : s.platform.outFails = true) : s.emit a bs = .error .busError := by
  rw [State.emit, if_neg (Nat.not_lt.2 ha), if_pos hfails]

/-- Settles O40: in each clause the failing access is made, and in the second none is. -/
theorem unansweredPortsStop : Obligations.UnansweredPortsStop := by
  intro s
  refine ⟨fun hfails hspace ⟨k, hk, hin⟩ => ?_, fun hout => ?_, fun hfails ha => ?_, fun hfails ha => ?_, fun hmute => ?_⟩
  · have hnear : ((gatherReads s.cfg s.origin).any fun a => decide (2 ^ 64 < a + 4)) = false := by
      rw [List.any_eq_false]
      intro a ha
      obtain ⟨i, -, hi, rfl⟩ := mem_gatherReads.1 ha
      have := Cfg.pixelAddr_bounds hi
      rw [decide_eq_true_eq]
      omega
    have hread : (gatherReads s.cfg s.origin).isEmpty = false := by
      rw [List.isEmpty_eq_false_iff_exists_mem]
      exact ⟨_, mem_gatherReads.2 ⟨k, hk, hin, rfl⟩⟩
    rw [exec, execGather, hnear, hfails, hread]
    rfl
  · have hnone : gatherReads s.cfg s.origin = [] := by
      refine List.eq_nil_iff_forall_not_mem.2 fun a ha => ?_
      obtain ⟨i, hi, hin, -⟩ := mem_gatherReads.1 ha
      exact absurd hin (by simp [hout i hi])
    rw [exec, execGather, hnone]
    simp
  · rw [exec, execEmitAlpha, State.emit_busError ha hfails]
    rfl
  · rw [exec, execEmitColor, State.emit_busError ha hfails]
    rfl
  · rw [exec, execQuantize, if_pos hmute]

/-! ### A host write (R76) -/

/-- A host write to the source region while BUSY marks it written. -/
theorem State.hostWrite_of_source {s : State} {a : BitVec 64} (hbusy : s.status.state = .busy)
    (hsource : s.cfg.inSource a.toNat = true) (v : Byte) :
    s.hostWrite a v = { s with mem := s.mem.write a.toNat v, race := s.taint } := by
  rw [State.hostWrite, State.isBusy_iff.2 hbusy, hsource]
  rfl

/-- A host write to the output region while BUSY is recorded, and leaves the host's byte or the one that stood there. -/
theorem State.hostWrite_of_output {s : State} {a : BitVec 64} (hbusy : s.status.state = .busy)
    (hsource : s.cfg.inSource a.toNat = false) (hout : s.inOutput a.toNat = true) (v : Byte) :
    ∃ w, (w = v ∨ w = s.mem.read a.toNat) ∧
      s.hostWrite a v = { s with
        mem := s.mem.write a.toNat w
        race := { s.race with hostOut := a.toNat :: s.race.hostOut, draws := s.race.draws + 1 } } := by
  rw [State.hostWrite, State.isBusy_iff.2 hbusy, hsource, hout]
  refine ⟨_, ?_, rfl⟩
  split
  · exact .inr rfl
  · exact .inl rfl

/-- Everywhere else, and while not BUSY, a host write is an ordinary write. -/
theorem State.hostWrite_of_elsewhere {s : State} {a : BitVec 64}
    (h : s.status.state ≠ .busy ∨ (s.cfg.inSource a.toNat = false ∧ s.inOutput a.toNat = false)) (v : Byte) :
    s.hostWrite a v = { s with mem := s.mem.write a.toNat v } := by
  rcases h with hidle | ⟨hsource, hout⟩
  · have hbusy : s.isBusy = false := beq_eq_false_iff_ne.2 hidle
    simp [State.hostWrite, hbusy]
  · simp [State.hostWrite, hsource, hout]

/-- What a host write writes, and what it marks (20_memory.md R76): only the first one to the source region sets draws aside. -/
theorem State.hostWrite_effect (s : State) (a : BitVec 64) (v : Byte) :
    ∃ (w : Byte) (r : Race), s.hostWrite a v = { s with mem := s.mem.write a.toNat w, race := r } ∧
      (w = v ∨ (s.status.state = .busy ∧ s.inOutput a.toNat = true ∧ w = s.mem.read a.toNat)) ∧
      (s.status.state = .busy → s.cfg.inSource a.toNat = true → r.srcTainted = true) ∧
      (s.status.state = .busy → s.cfg.inSource a.toNat = false → s.inOutput a.toNat = true → a.toNat ∈ r.hostOut) ∧
      ((s.cfg.inSource a.toNat = false ∨ s.race.srcTainted = true) →
        r.srcTainted = s.race.srcTainted ∧ r.srcDraws = s.race.srcDraws) := by
  by_cases hbusy : s.status.state = .busy
  · cases hsource : s.cfg.inSource a.toNat with
    | true =>
      refine ⟨v, s.taint, State.hostWrite_of_source hbusy hsource v, .inl rfl, by simp, by simp, fun ha => ?_⟩
      rw [State.taint_again (by simpa using ha)]
      exact ⟨rfl, rfl⟩
    | false =>
      cases hout : s.inOutput a.toNat with
      | true =>
        obtain ⟨w, hw, hwrite⟩ := State.hostWrite_of_output hbusy hsource hout v
        exact ⟨w, _, hwrite, hw.imp_right fun hw => ⟨hbusy, rfl, hw⟩, by simp, by simp, fun _ => ⟨rfl, rfl⟩⟩
      | false =>
        have hwrite := State.hostWrite_of_elsewhere (.inr ⟨hsource, hout⟩) v
        exact ⟨v, s.race, hwrite, .inl rfl, by simp, by simp, fun _ => ⟨rfl, rfl⟩⟩
  · exact ⟨v, s.race, State.hostWrite_of_elsewhere (.inl hbusy) v, .inl rfl, fun h => absurd h hbusy,
      fun h => absurd h hbusy, fun _ => ⟨rfl, rfl⟩⟩

/-- Settles O47: a host write writes one byte, `State.hostWrite_effect` says which. -/
theorem hostWriteEffect : Obligations.HostWriteEffect := by
  intro s a v rest hwf hagenda
  obtain ⟨w, r, hwrite, hw, hsource, hout, -⟩ := State.hostWrite_effect { s with agenda := rest } a v
  have hsame := Memory.read_write_same s.mem a.toNat w hwf
  refine ⟨_, (step_host hagenda).trans (congrArg Host.Outcome.next hwrite), rfl, fun b hb => ?_, ?_, hsource, hout⟩
  · exact Memory.read_write_other s.mem a.toNat b w hwf hb.symm
  · exact hw.imp hsame.trans fun ⟨hbusy, hin, hw⟩ => ⟨hbusy, hin, hsame.trans hw⟩

/-! ### What a turn of the sequencer leaves (R60) -/

/-- The state after a micro-operation that stores `bs` where the written bytes end. -/
def State.stored (s : State) (bs : List Byte) (wpos : BitVec 4) (p : Phase) : State :=
  { s.writeCode (s.cfg.outBase.toNat + s.emitted) bs with
    cursor := { s.cursor with wpos := wpos }
    status := { s.status with phase := p } }

/-- A phase before ADVANCE that stores nothing moves no output cursor. -/
theorem State.emitted_phaseStep {s : State} (pix : Vector Word 16) (acc ccode : Code) {p : Phase}
    (hs : s.status.phase ≠ .advance) (hp : p ≠ .advance) :
    ({ s with pix := pix, acc := acc, ccode := ccode, status := { s.status with phase := p } } : State).emitted = s.emitted := by
  rw [State.emitted_of_ne_advance hp, State.emitted_of_ne_advance hs]

theorem Cfg.afterGather_ne (c : Cfg) {p : Phase} (halpha : p ≠ .alphaPack) (hquantize : p ≠ .quantize) : c.afterGather ≠ p := by
  unfold Cfg.afterGather
  split
  · exact halpha.symm
  · exact hquantize.symm

/-- Before the colour phases nothing of the current sub-block is written. -/
theorem State.emitted_of_emitAlpha {s : State} (h : s.PhaseOk) (hphase : s.status.phase = .emitAlpha) :
    s.cfg.hasAlpha = true ∧ s.emitted = s.blocksDone.toNat * 16 := by
  obtain ⟨halpha, hwpos⟩ := (State.phaseOk_alpha (.inr hphase)).1 h
  refine ⟨halpha, ?_⟩
  rw [State.emitted_of_ne_advance (by simp [hphase]), hwpos, Cfg.blockBytes, if_pos halpha]
  rfl

/-- EMIT_ALPHA stores the alpha code where the written bytes end. -/
theorem execEmitAlpha_stored {s t : State} (h : s.PhaseOk) (hphase : s.status.phase = .emitAlpha)
    (hexec : execEmitAlpha s = .next t) :
    t = s.stored (bytesLE64 s.acc) 8 .quantize ∧ t.emitted = s.emitted + 8 ∧
      s.cfg.outBase.toNat + s.emitted + 8 ≤ 2 ^ 64 := by
  obtain ⟨halpha, hemitted⟩ := State.emitted_of_emitAlpha h hphase
  obtain ⟨haddr, rfl⟩ := execEmitAlpha_next hexec
  have hat : s.alphaAddr = s.cfg.outBase.toNat + s.emitted := by rw [hemitted]; rfl
  refine ⟨by rw [State.stored, hat], ?_, hat ▸ haddr⟩
  rw [State.emitted_of_ne_advance (by simp), hemitted]
  simp [Cfg.blockBytes, halpha]

/-- EMIT_COLOR stores the colour code where the written bytes end. -/
theorem execEmitColor_stored {s t : State} (h : s.PhaseOk) (hphase : s.status.phase = .emitColor)
    (hexec : execEmitColor s = .next t) :
    t = s.stored (bytesBE64 s.ccode) s.cursor.wpos .advance ∧ t.emitted = s.emitted + 8 ∧
      s.cfg.outBase.toNat + s.emitted + 8 ≤ 2 ^ 64 := by
  have hwpos := (State.phaseOk_color (.inr (.inl hphase))).1 h
  have hemitted := State.emitted_of_ne_advance (s := s) (by simp [hphase])
  obtain ⟨haddr, rfl⟩ := execEmitColor_next hexec
  have hat : s.colorAddr = s.cfg.outBase.toNat + s.emitted := by rw [hemitted, State.colorAddr, Nat.add_assoc]
  refine ⟨by rw [State.stored, ← hat]; rfl, ?_, hat ▸ haddr⟩
  rw [State.emitted_advance rfl, hemitted, Nat.add_assoc, State.wpos_of_color hwpos]
  rfl

/-- What a turn of the sequencer keeps of a running command, and the bytes it may store to: those that count as written from
then on. -/
structure State.SequencerFrame (s t : State) : Prop where
  cfg     : t.cfg = s.cfg
  outLen  : t.outLen = s.outLen
  mode    : t.cursor.mode = s.cursor.mode
  race    : t.race = { s.race with blockOut := t.race.blockOut, draws := t.race.draws }
  emitted : s.emitted ≤ t.emitted
  mem     : ∀ a, t.mem.read a = s.mem.read a ∨
    (t.status.state = .busy ∧ s.cfg.outBase.toNat + s.emitted ≤ a ∧ a < s.cfg.outBase.toNat + t.emitted)

theorem State.stored_frame {s : State} {bs : List Byte} {wpos : BitVec 4} {p : Phase} (hwf : s.mem.wf)
    (hbusy : s.status.state = .busy) (haddr : s.cfg.outBase.toNat + s.emitted + bs.length ≤ 2 ^ 64)
    (hemitted : (s.stored bs wpos p).emitted = s.emitted + bs.length) : s.SequencerFrame (s.stored bs wpos p) where
  cfg := rfl
  outLen := rfl
  mode := rfl
  race := rfl
  emitted := by omega
  mem := fun a => by
    by_cases ha : s.cfg.outBase.toNat + s.emitted ≤ a ∧ a < s.cfg.outBase.toNat + (s.stored bs wpos p).emitted
    · exact .inr ⟨hbusy, ha⟩
    · exact .inl (s.writeCode_outside _ a bs hwf haddr (by omega))

/-- Every turn of the sequencer has the frame; only the two phases that emit a code store. -/
theorem sequencerTurn_frame {s t : State} (h : s.Inv) (hturn : sequencerTurn s = .next t) : s.SequencerFrame t := by
  rcases sequencerTurn_cases hturn with ⟨-, rfl⟩ | ⟨hbusy, ⟨hphase, hexec⟩ | ⟨hphase, hexec⟩ | ⟨hphase, hexec⟩ |
    ⟨hphase, hexec⟩ | ⟨hphase, hexec⟩ | ⟨hphase, hexec⟩⟩
  · exact ⟨rfl, rfl, rfl, rfl, le_rfl, fun _ => .inl rfl⟩
  · rw [execGather_next hexec]
    have hp : s.cfg.afterGather ≠ .advance := s.cfg.afterGather_ne (by decide) (by decide)
    exact ⟨rfl, rfl, rfl, rfl, (State.emitted_phaseStep s.gathered s.acc s.ccode (by simp [hphase]) hp).ge, fun _ => .inl rfl⟩
  · cases hexec
    exact ⟨rfl, rfl, rfl, rfl, (State.emitted_phaseStep s.pix _ s.ccode (by simp [hphase]) (by decide)).ge, fun _ => .inl rfl⟩
  · obtain ⟨rfl, hemitted, haddr⟩ := execEmitAlpha_stored (h.running hbusy).phase hphase hexec
    exact State.stored_frame h.memWf hbusy haddr hemitted
  · rw [execQuantize_next hexec]
    exact ⟨rfl, rfl, rfl, rfl, (State.emitted_phaseStep s.pix s.acc _ (by simp [hphase]) (by decide)).ge, fun _ => .inl rfl⟩
  · obtain ⟨rfl, hemitted, haddr⟩ := execEmitColor_stored (h.running hbusy).phase hphase hexec
    exact State.stored_frame h.memWf hbusy haddr hemitted
  · have hfinished : s.emitted = (s.blocksDone + 1).toNat * s.cfg.blockBytes := by
      rw [State.emitted_advance hphase, (h.running hbusy).cursor.toNat_blocksDone_succ, Nat.add_one_mul]
    rcases execAdvance_cases hexec with ⟨-, rfl⟩ | ⟨-, rfl⟩
    · refine ⟨rfl, rfl, rfl, rfl, ?_, fun _ => .inl rfl⟩
      rw [hfinished, State.emitted_of_ne_advance (by simp)]
      exact Nat.le_add_right ..
    · refine ⟨rfl, rfl, Cursor.following_mode .., rfl, ?_, fun _ => .inl rfl⟩
      rw [hfinished, State.emitted_of_ne_advance (by simp)]
      exact Nat.le_add_right ..

/-- A turn of the sequencer stores inside the output region alone. -/
theorem State.SequencerFrame.mem_outside {s t : State} (hframe : s.SequencerFrame t) (ht : t.Inv) {a : Nat}
    (ha : s.inOutput a = false) : t.mem.read a = s.mem.read a := by
  rcases hframe.mem a with hsame | ⟨hbusy, hlow, hhigh⟩
  · exact hsame
  · have hle := (ht.running hbusy).emitted_le
    rw [hframe.outLen] at hle
    simp only [State.inOutput, Bool.and_eq_false_iff, decide_eq_false_iff_not] at ha
    omega

/-! ### What a turn of the host does to memory and to a running command -/

/-- The state after a host turn that leaves a running command alone: IGN, the next free value, the platform, the pending turns
and what the host has seen may have changed. -/
def State.beside (s : State) (ign : Bool) (draws : Nat) (platform : Platform) (agenda : List Turn) (seen : List Seen) : State :=
  { s with
    status := { s.status with ign := ign }
    race := { s.race with draws := draws }
    platform := platform
    agenda := agenda
    seen := seen }

theorem State.poll_beside (s : State) (targets : List RunState) (gaps : List Nat) :
    ∃ agenda seen, s.poll targets gaps = s.beside s.status.ign s.race.draws s.platform agenda seen := by
  unfold State.poll
  split
  · exact ⟨_, _, rfl⟩
  · cases gaps <;> exact ⟨_, _, rfl⟩

@[simp] theorem State.poll_mem (targets : List RunState) (gaps : List Nat) (s : State) : (s.poll targets gaps).mem = s.mem := by
  obtain ⟨_, _, hpoll⟩ := s.poll_beside targets gaps
  rw [hpoll, State.beside]

theorem State.hostRead_beside (s : State) (a : BitVec 64) :
    ∃ draws seen, s.hostRead a = s.beside s.status.ign draws s.platform s.agenda seen := by
  unfold State.hostRead
  split <;> exact ⟨_, _, rfl⟩

@[simp] theorem State.hostRead_mem (a : BitVec 64) (s : State) : (s.hostRead a).mem = s.mem := by
  obtain ⟨_, _, hread⟩ := s.hostRead_beside a
  rw [hread, State.beside]

@[simp] theorem State.configWrite_mem (r : Reg) (v : Word) (s : State) : (s.configWrite r v).mem = s.mem := by
  unfold State.configWrite
  split <;> rfl

theorem State.AfterCommand.mem {s t : State} (h : s.AfterCommand t) : t.mem = s.mem := by
  rcases h with ⟨-, rfl⟩ | ⟨-, rfl | rfl⟩ | ⟨-, rfl | ⟨_, -, rfl⟩⟩ | ⟨-, rfl⟩ | ⟨-, -, _, ⟨-, rfl⟩ | ⟨-, rfl⟩⟩ <;> rfl

/-- Of the host's turns only a write of memory and a reset can change memory. -/
theorem hostTurn_mem {e : HostEvent} {s t : State} (h : hostTurn e s = .next t) :
    t.mem = s.mem ∨ (∃ a v, e = .memWrite a v) ∨ t = s.resetEvent := by
  cases e with
  | port a =>
    rcases portAccess_cases h with ⟨_, -, rfl⟩ | ⟨_, v, -, ⟨-, hcmd⟩ | rfl | ⟨r, -, -, rfl⟩⟩
    · exact .inl rfl
    · exact .inl (cmdWrite_after hcmd).mem
    · exact .inl rfl
    · exact .inl (State.configWrite_mem ..)
  | wait targets gaps => cases h; exact .inl (State.poll_mem ..)
  | memWrite a v => exact .inr (.inl ⟨a, v, rfl⟩)
  | memRead a => cases h; exact .inl (State.hostRead_mem ..)
  | reset => cases h; exact .inr (.inr rfl)
  | platform p => cases h; exact .inl rfl

/-- A CMD write while BUSY is ignored and sets IGN (40_host_commands.md R118). -/
theorem State.AfterCommand.of_busy {s t : State} (h : s.AfterCommand t) (hbusy : s.status.state = .busy) : t = s.setIgn true := by
  rcases h with ⟨-, rfl⟩ | ⟨hs, -⟩ | ⟨hs | hs, -⟩ | ⟨hs, -⟩ | ⟨hs, -⟩
  · rfl
  all_goals exact absurd (hbusy.symm.trans hs) (by decide)

/-- While BUSY a turn of the host is a reset, a write of memory, or leaves the running command alone (40_host_commands.md R104,
R118). -/
theorem hostTurn_of_busy {e : HostEvent} {s t : State} (h : hostTurn e s = .next t) (hbusy : s.status.state = .busy) :
    (e = .reset ∧ t = s.resetEvent) ∨ (∃ a v, e = .memWrite a v ∧ t = s.hostWrite a v) ∨
      ∃ ign draws platform agenda seen, t = s.beside ign draws platform agenda seen := by
  cases e with
  | port a =>
    refine .inr (.inr ?_)
    rcases portAccess_cases h with ⟨_, -, rfl⟩ | ⟨_, v, -, ⟨-, hcmd⟩ | rfl | ⟨r, -, -, rfl⟩⟩
    · exact ⟨_, _, _, _, _, rfl⟩
    · rw [(cmdWrite_after hcmd).of_busy hbusy]
      exact ⟨_, _, _, _, _, rfl⟩
    · exact ⟨_, _, _, _, _, rfl⟩
    · rw [State.configWrite, if_pos (State.isBusy_iff.2 hbusy)]
      exact ⟨_, _, _, _, _, rfl⟩
  | wait targets gaps =>
    cases h
    obtain ⟨agenda, seen, hpoll⟩ := s.poll_beside targets gaps
    exact .inr (.inr ⟨_, _, _, agenda, seen, hpoll⟩)
  | memWrite a v => cases h; exact .inr (.inl ⟨a, v, rfl, rfl⟩)
  | memRead a =>
    cases h
    obtain ⟨draws, seen, hread⟩ := s.hostRead_beside a
    exact .inr (.inr ⟨_, draws, _, _, seen, hread⟩)
  | reset => cases h; exact .inl ⟨rfl, rfl⟩
  | platform p => cases h; exact .inr (.inr ⟨_, _, p, _, _, rfl⟩)

/-- A reset writes inside the output region of the command it aborts alone (70_reset_and_hazards.md R211). -/
theorem State.abortedMem_outside {s : State} (h : s.mem.wf) {a : Nat} (ha : s.inOutput a = false) :
    s.abortedMem.read a = s.mem.read a := by
  simp only [State.inOutput, Bool.and_eq_false_iff, decide_eq_false_iff_not] at ha
  unfold State.abortedMem
  refine (List.foldlRecOn (motive := fun m : Memory => m.wf ∧ m.read a = s.mem.read a) _ _ ⟨h, rfl⟩ ?_).2
  rintro m ⟨hm, hread⟩ j hj
  have hj := List.mem_range'_1.1 hj
  split
  next haddr => exact ⟨Memory.write_wf _ _ _ hm haddr, (Memory.read_write_other _ _ _ _ hm (by omega)).trans hread⟩
  next => exact ⟨hm, hread⟩

/-- A reset changes memory only where it aborts a command (70_reset_and_hazards.md R212). -/
theorem State.resetEvent_mem (s : State) : s.resetEvent.mem = if s.status.state = .busy then s.abortedMem else s.mem := by
  simp only [State.resetEvent, State.isBusy_iff]

/-- Settles O54: the sequencer stores the bytes it counts as written, a reset draws bytes of the region it aborts, and no other
turn but a host write of memory stores. -/
theorem blockWritesOnlyOutput : Obligations.BlockWritesOnlyOutput := by
  intro s t h hstep hnowrite
  have ht := stepKeepsInvariant s t h hstep
  obtain ⟨rest, ⟨-, hturn⟩ | ⟨e, hagenda, hturn⟩⟩ := step_cases hstep
  · have h' : State.Inv { s with agenda := rest } := h.of_unspoken s.status.ign s.pix s.acc s.ccode s.platform rest s.seen
    refine ⟨fun a ha => (sequencerTurn_frame h' hturn).mem_outside ht ha, fun hidle a => ?_⟩
    rw [sequencerTurn_idle (by exact hidle)] at hturn
    cases hturn
    rfl
  · rcases hostTurn_mem hturn with hsame | ⟨a, v, rfl⟩ | rfl
    · exact ⟨fun a _ => by rw [hsame], fun _ a => by rw [hsame]⟩
    · exact absurd hagenda (hnowrite a v rest)
    · rw [State.resetEvent_mem]
      refine ⟨fun a ha => ?_, fun hidle a => by rw [if_neg hidle]⟩
      split
      · exact State.abortedMem_outside (s := { s with agenda := rest }) h.memWf ha
      · rfl

/-! ### The current sub-block -/

/-- The cursor of a running command is at the sub-block BLOCKS_DONE counts (41_tiler.md R135). -/
theorem State.CursorOk.originAt {s : State} (h : s.CursorOk) :
    s.cfg.originAt s.cursor.mode s.blocksDone.toNat = s.origin := by
  cases hmode : s.cursor.mode with
  | block => simp only [State.origin, hmode, Cfg.originAt]
  | image =>
    obtain ⟨htx, -, hdone⟩ := (State.cursorOk_image hmode).1 h
    have hq := s.cursor.q.isLt
    have htile : s.blocksDone.toNat / 4 = s.cursor.ty.toNat * s.cfg.tilesWide + s.cursor.tx.toNat := by omega
    have hsub : s.blocksDone.toNat % 4 = s.cursor.q.toNat := by omega
    have hcolumn : (s.cursor.ty.toNat * s.cfg.tilesWide + s.cursor.tx.toNat) % s.cfg.tilesWide = s.cursor.tx.toNat := by
      rw [Nat.mul_comm, Nat.mul_add_mod, Nat.mod_eq_of_lt htx]
    have hrow : (s.cursor.ty.toNat * s.cfg.tilesWide + s.cursor.tx.toNat) / s.cfg.tilesWide = s.cursor.ty.toNat := by
      rw [Nat.mul_comm, Nat.mul_add_div (by omega), Nat.div_eq_of_lt htx, Nat.add_zero]
    simp only [State.origin, hmode, Cfg.originAt, htile, hsub, hcolumn, hrow]

/-- Before GATHER has run every sub-block still to be written is gathered from memory, the current one too. -/
theorem State.pixelsOf_gather {s : State} (hphase : s.status.phase = .gather) (n : Nat) :
    s.pixelsOf n = s.pixelsAt n (s.cfg.originAt s.cursor.mode n) := by
  simp [State.pixelsOf, hphase]

/-- Once GATHER has run the gather buffer holds the current sub-block. -/
theorem State.pixelsOf_current {s : State} (hphase : s.status.phase ≠ .gather) : s.pixelsOf s.blocksDone.toNat = s.pix := by
  simp [State.pixelsOf, State.atSubBlock, hphase]

theorem State.alphaOf_emitAlpha {s : State} (hphase : s.status.phase = .emitAlpha) : s.alphaOf s.blocksDone.toNat = s.acc := by
  simp [State.alphaOf, State.atSubBlock, hphase]

theorem State.alphaOf_of_ne {s : State} (hphase : s.status.phase ≠ .emitAlpha) (n : Nat) :
    s.alphaOf n = alphaCode (s.pixelsOf n) := by
  simp [State.alphaOf, hphase]

theorem State.alphaOf_current {s : State} (hgather : s.status.phase ≠ .gather) (hphase : s.status.phase ≠ .emitAlpha) :
    s.alphaOf s.blocksDone.toNat = alphaCode s.pix := by
  rw [State.alphaOf_of_ne hphase, State.pixelsOf_current hgather]

theorem State.colorOf_emitColor {s : State} (hphase : s.status.phase = .emitColor) : s.colorOf s.blocksDone.toNat = s.ccode := by
  simp [State.colorOf, State.atSubBlock, hphase]

theorem State.colorOf_of_ne {s : State} (hphase : s.status.phase ≠ .emitColor) (n : Nat) :
    s.colorOf n = Config.Q (rgbs (s.pixelsOf n)) s.cfg.quality := by
  simp [State.colorOf, hphase]

theorem State.colorOf_current {s : State} (hgather : s.status.phase ≠ .gather) (hphase : s.status.phase ≠ .emitColor) :
    s.colorOf s.blocksDone.toNat = Config.Q (rgbs s.pix) s.cfg.quality := by
  rw [State.colorOf_of_ne hphase, State.pixelsOf_current hgather]

/-! ### The bytes of a sub-block (41_tiler.md R136) -/

theorem Cfg.blockBytes_pos (c : Cfg) : 0 < c.blockBytes := by
  rcases c.blockBytes_cases with ⟨-, hB⟩ | ⟨-, hB⟩ <;> omega

/-- The first eight bytes of a sub-block with alpha are its alpha code. -/
theorem Cfg.codeBytes_alpha {c : Cfg} (halpha : c.hasAlpha = true) (alpha color : Code) {i : Nat} (hi : i < 8) :
    (c.codeBytes alpha color).getD i 0 = (bytesLE64 alpha).getD i 0 := by
  rw [Cfg.codeBytes, if_pos halpha, List.getD_append _ _ _ _ hi]

/-- The last eight bytes of a sub-block are its colour code. -/
theorem Cfg.codeBytes_color {c : Cfg} {first : Nat} (hfirst : first + 8 = c.blockBytes) (alpha color : Code) (i : Nat) :
    (c.codeBytes alpha color).getD (first + i) 0 = (bytesBE64 color).getD i 0 := by
  have hlength : (if c.hasAlpha then bytesLE64 alpha else []).length = first := by
    rcases c.blockBytes_cases with ⟨halpha, hB⟩ | ⟨halpha, hB⟩ <;> simp [halpha] <;> omega
  rw [Cfg.codeBytes, List.getD_append_right _ _ _ _ (by omega), hlength, Nat.add_sub_cancel_left]

/-! ### The value the command writes is the one the rules give (R75) -/

/-- A command that the host leaves alone writes the codes of the pixels that stand in the source region. -/
theorem State.DataOk.pixelsOf {s : State} (h : s.DataOk) (hcursor : s.CursorOk) (htaint : s.race.srcTainted = false) (n : Nat) :
    s.pixelsOf n = gatherAt s.cfg s.mem (s.cfg.originAt s.cursor.mode n) := by
  by_cases hcurrent : n = s.blocksDone.toNat ∧ s.status.phase ≠ .gather
  · obtain ⟨rfl, hphase⟩ := hcurrent
    rw [State.pixelsOf_current hphase, h.pixels hphase, hcursor.originAt]
  · have hlater : (s.atSubBlock n && s.status.phase != .gather) = false := by
      simpa [State.atSubBlock, imp_iff_not_or] using hcurrent
    simp [State.pixelsOf, hlater, State.pixelsAt, htaint]

theorem State.DataOk.alphaOf {s : State} (h : s.DataOk) (n : Nat) : s.alphaOf n = alphaCode (s.pixelsOf n) := by
  by_cases hphase : s.status.phase = .emitAlpha
  · by_cases hn : n = s.blocksDone.toNat
    · rw [hn, State.alphaOf_emitAlpha hphase, h.alpha hphase, State.pixelsOf_current (by simp [hphase])]
    · simp [State.alphaOf, State.atSubBlock, hn]
  · exact State.alphaOf_of_ne hphase n

theorem State.DataOk.colorOf {s : State} (h : s.DataOk) (n : Nat) :
    s.colorOf n = Config.Q (rgbs (s.pixelsOf n)) s.cfg.quality := by
  by_cases hphase : s.status.phase = .emitColor
  · by_cases hn : n = s.blocksDone.toNat
    · rw [hn, State.colorOf_emitColor hphase, h.color hphase, State.pixelsOf_current (by simp [hphase])]
    · simp [State.colorOf, State.atSubBlock, hn]
  · exact State.colorOf_of_ne hphase n

/-- A byte already written stands in memory as recorded, and a byte to be written is made of the codes of its sub-block. -/
theorem State.DataOk.commandByte {s : State} (h : s.DataOk) (hrunning : s.Running) (huntouched : s.Untouched) (j : Nat) :
    s.commandByte j = s.outputByte j := by
  obtain ⟨htaint, hhost⟩ := huntouched
  by_cases hj : j < s.emitted
  · rw [State.commandByte_written hj, ← hrunning.recorded j hj (by simp [hhost]), h.written j hj]
  · rw [State.commandByte_pending (by omega), h.alphaOf, h.colorOf, h.pixelsOf hrunning.cursor htaint]
    rfl

/-- Settles O46: the record of the bytes written is the invariant's, and `State.DataOk.commandByte` the rest. -/
theorem commandByteIsRight : Obligations.CommandByteIsRight := by
  intro s h hbusy j _
  have hrunning := h.running hbusy
  refine ⟨fun hj hhost => ?_, fun hright huntouched => (hright hbusy huntouched).commandByte hrunning huntouched j⟩
  rw [State.commandByte_written hj]
  exact hrunning.recorded j hj hhost

/-! ### A host read (R74, R75) -/

/-- A host read of an output byte while BUSY answers by a draw. -/
theorem State.hostRead_race {s : State} {a : BitVec 64} (hbusy : s.status.state = .busy) (hout : s.inOutput a.toNat = true) :
    s.hostRead a = { s with
      seen := .mem a (s.raceByte a.toNat) :: s.seen
      race := { s.race with draws := s.race.draws + 1 } } := by
  rw [State.hostRead, State.isBusy_iff.2 hbusy, hout]
  rfl

/-- Any other host read answers the byte there. -/
theorem State.hostRead_plain {s : State} {a : BitVec 64} (h : ¬(s.status.state = .busy ∧ s.inOutput a.toNat = true)) :
    s.hostRead a = { s with seen := .mem a (s.mem.read a.toNat) :: s.seen } := by
  rw [State.hostRead, if_neg]
  rwa [Bool.and_eq_true, State.isBusy_iff]

theorem State.raceByte_cases (s : State) (a : Nat) :
    s.raceByte a = s.race.memBefore.read a ∨ s.raceByte a = s.commandByte (a - s.cfg.outBase.toNat) := by
  unfold State.raceByte
  split
  · exact .inl rfl
  · exact .inr rfl

/-- Settles O44: the two kinds of read; the second value of a race is the one of `State.DataOk.commandByte`. -/
theorem hostReadOldOrNew : Obligations.HostReadOldOrNew := by
  intro s a rest hagenda
  by_cases hrace : s.status.state = .busy ∧ s.inOutput a.toNat = true
  · obtain ⟨hbusy, hout⟩ := hrace
    have hanswer := s.raceByte_cases a.toNat
    have hread := State.hostRead_race (s := { s with agenda := rest }) (a := a) hbusy hout
    refine ⟨_, s.raceByte a.toNat, (step_host hagenda).trans (congrArg Host.Outcome.next hread), rfl, ?_, fun _ _ => hanswer, ?_⟩
    · rintro (hidle | hout')
      · exact absurd hbusy hidle
      · exact absurd (hout.symm.trans hout') (by decide)
    · intro h hright _ huntouched _
      rwa [(hright hbusy huntouched).commandByte (h.running hbusy) huntouched] at hanswer
  · have hread := State.hostRead_plain (s := { s with agenda := rest }) (a := a) hrace
    exact ⟨_, s.mem.read a.toNat, (step_host hagenda).trans (congrArg Host.Outcome.next hread), rfl, fun _ => rfl,
      fun hbusy hout => absurd ⟨hbusy, hout⟩ hrace, fun _ _ hbusy _ hout => absurd ⟨hbusy, hout⟩ hrace⟩

/-! ### The value the command writes is one for the whole command (R75) -/

/-- What a GATHER takes depends on the registers, the source region, and the values set aside for a source the host wrote. -/
theorem State.pixelsAt_congr {s t : State} (hcfg : t.cfg = s.cfg) (htaint : t.race.srcTainted = s.race.srcTainted)
    (hdraws : t.race.srcDraws = s.race.srcDraws) (hsource : ∀ a, s.cfg.inSource a = true → t.mem.read a = s.mem.read a)
    (n : Nat) (o : Int × Int) : t.pixelsAt n o = s.pixelsAt n o := by
  simp only [State.pixelsAt, hcfg, htaint, hdraws, gatherAt_congr hsource]

/-- No byte of the output region is one of the source region (40_host_commands.md R115). -/
theorem State.Running.not_inOutput {s : State} (h : s.Running) {a : Nat} (ha : s.cfg.inSource a = true) :
    s.inOutput a = false := by
  by_contra hout
  have hout : s.inOutput a = true := by simpa using hout
  simp only [State.inOutput, Bool.and_eq_true, decide_eq_true_eq] at hout
  have hapart := h.not_inSource (j := a - s.cfg.outBase.toNat) (by omega)
  rw [Nat.add_sub_cancel' hout.1, ha] at hapart
  cases hapart

/-- A turn of the sequencer keeps the source region. -/
theorem State.SequencerFrame.source {s t : State} (hframe : s.SequencerFrame t) (hrunning : s.Running) (ht : t.Inv) (a : Nat)
    (ha : s.cfg.inSource a = true) : t.mem.read a = s.mem.read a :=
  hframe.mem_outside ht (hrunning.not_inOutput ha)

theorem State.SequencerFrame.pixelsAt {s t : State} (hframe : s.SequencerFrame t) (hrunning : s.Running) (ht : t.Inv) (n : Nat)
    (o : Int × Int) : t.pixelsAt n o = s.pixelsAt n o :=
  State.pixelsAt_congr hframe.cfg (by rw [hframe.race]) (by rw [hframe.race]) (hframe.source hrunning ht) n o

/-- The codes of a sub-block that is not in hand before or after a turn of the sequencer. -/
theorem State.SequencerFrame.codes_other {s t : State} (hframe : s.SequencerFrame t) (hrunning : s.Running) (ht : t.Inv) {n : Nat}
    (hs : n ≠ s.blocksDone.toNat) (hn : n ≠ t.blocksDone.toNat) : t.alphaOf n = s.alphaOf n ∧ t.colorOf n = s.colorOf n := by
  simp only [State.alphaOf_other hs, State.alphaOf_other hn, State.colorOf_other hs, State.colorOf_other hn, hframe.cfg,
    hframe.mode, hframe.pixelsAt hrunning ht, and_self]

/-- The value written at a byte depends on what is recorded as written and, for the sub-blocks not yet finished, on their
codes. -/
theorem State.commandByte_congr {s t : State} (hcfg : t.cfg = s.cfg) (hblock : t.race.blockOut = s.race.blockOut)
    (hemitted : t.emitted = s.emitted)
    (hcodes : ∀ n, s.emitted < (n + 1) * s.cfg.blockBytes → t.alphaOf n = s.alphaOf n ∧ t.colorOf n = s.colorOf n) (j : Nat) :
    t.commandByte j = s.commandByte j := by
  by_cases hj : j < s.emitted
  · rw [State.commandByte_written hj, State.commandByte_written (hemitted ▸ hj), hcfg, hblock]
  · obtain ⟨halpha, hcolor⟩ := hcodes (j / s.cfg.blockBytes)
      (by have := Nat.lt_div_mul_add (a := j) s.cfg.blockBytes_pos; rw [Nat.add_one_mul]; omega)
    rw [State.commandByte_pending (by omega), State.commandByte_pending (by omega), hcfg, halpha, hcolor]

/-- A phase before ADVANCE that stores nothing keeps the value written at every byte, if it keeps the codes of the current
sub-block. -/
theorem State.commandByte_phaseStep {s : State} {pix : Vector Word 16} {acc ccode : Code} {p : Phase}
    (hs : s.status.phase ≠ .advance) (hp : p ≠ .advance) :
    let t : State := { s with pix := pix, acc := acc, ccode := ccode, status := { s.status with phase := p } }
    t.alphaOf s.blocksDone.toNat = s.alphaOf s.blocksDone.toNat → t.colorOf s.blocksDone.toNat = s.colorOf s.blocksDone.toNat →
      ∀ j, t.commandByte j = s.commandByte j := by
  intro t halpha hcolor
  refine State.commandByte_congr rfl rfl (State.emitted_phaseStep pix acc ccode hs hp) fun n _ => ?_
  by_cases hn : n = s.blocksDone.toNat
  · rw [hn]
    exact ⟨halpha, hcolor⟩
  · have ht : n ≠ t.blocksDone.toNat := hn
    rw [State.alphaOf_other hn, State.alphaOf_other ht, State.colorOf_other hn, State.colorOf_other ht]
    exact ⟨rfl, rfl⟩

/-- A byte of the current sub-block yet to be written. -/
theorem State.commandByte_current {s : State} {j i : Nat} (hj : j = s.blocksDone.toNat * s.cfg.blockBytes + i)
    (hi : i < s.cfg.blockBytes) (hpending : s.emitted ≤ j) :
    s.commandByte j =
      (s.cfg.codeBytes (s.alphaOf s.blocksDone.toNat) (s.colorOf s.blocksDone.toNat)).getD i 0 := by
  have hdiv : j / s.cfg.blockBytes = s.blocksDone.toNat := by
    rw [hj, Nat.mul_comm, Nat.mul_add_div s.cfg.blockBytes_pos, Nat.div_eq_of_lt hi, Nat.add_zero]
  have hmod : j % s.cfg.blockBytes = i := by rw [hj, Nat.mul_comm, Nat.mul_add_mod, Nat.mod_eq_of_lt hi]
  rw [State.commandByte_pending hpending, hdiv, hmod]

@[simp] theorem State.stored_cfg (s : State) (bs : List Byte) (wpos : BitVec 4) (p : Phase) :
    (s.stored bs wpos p).cfg = s.cfg := rfl
@[simp] theorem State.stored_phase (s : State) (bs : List Byte) (wpos : BitVec 4) (p : Phase) :
    (s.stored bs wpos p).status.phase = p := rfl

/-- A micro-operation that stores a code keeps the value written at every byte, if it stores what was to be written there and
keeps what is still to be written in the current sub-block. -/
theorem State.commandByte_stored {s : State} {bs : List Byte} {wpos : BitVec 4} {p : Phase} (h : s.Inv)
    (hbusy : s.status.state = .busy) (ht : (s.stored bs wpos p).Inv)
    (haddr : s.cfg.outBase.toNat + s.emitted + bs.length ≤ 2 ^ 64)
    (hemitted : (s.stored bs wpos p).emitted = s.emitted + bs.length)
    (hbytes : ∀ i < bs.length, s.commandByte (s.emitted + i) = bs.getD i 0)
    (hlater : ∀ i, s.emitted + bs.length ≤ s.blocksDone.toNat * s.cfg.blockBytes + i → i < s.cfg.blockBytes →
      (s.cfg.codeBytes ((s.stored bs wpos p).alphaOf s.blocksDone.toNat)
          ((s.stored bs wpos p).colorOf s.blocksDone.toNat)).getD i 0 =
        (s.cfg.codeBytes (s.alphaOf s.blocksDone.toNat) (s.colorOf s.blocksDone.toNat)).getD i 0) (j : Nat) :
    (s.stored bs wpos p).commandByte j = s.commandByte j := by
  by_cases hj : j < s.emitted + bs.length
  · rw [State.commandByte_written (by omega), State.stored_cfg]
    refine (s.writeCode_blockOut_read _ _ bs h.blockWf haddr).trans ?_
    split
    next hnew =>
      rw [Nat.add_sub_add_left, ← hbytes _ (by omega), Nat.add_sub_cancel' (by omega)]
    next hold => rw [State.commandByte_written (by omega)]
  · have hpending : s.emitted + bs.length ≤ j := Nat.not_lt.1 hj
    by_cases hn : j / s.cfg.blockBytes = s.blocksDone.toNat
    · have hsplit : j = s.blocksDone.toNat * s.cfg.blockBytes + j % s.cfg.blockBytes := by
        rw [← hn, Nat.div_add_mod']
      have hmod := Nat.mod_lt j s.cfg.blockBytes_pos
      rw [State.commandByte_current (s := s) hsplit hmod (by omega),
        State.commandByte_current (s := s.stored bs wpos p) hsplit hmod (by omega)]
      exact hlater _ (hsplit ▸ hpending) hmod
    · obtain ⟨halpha, hcolor⟩ :=
        (State.stored_frame h.memWf hbusy haddr hemitted).codes_other (h.running hbusy) ht hn hn
      rw [State.commandByte_pending (by omega), State.commandByte_pending (by omega), State.stored_cfg, halpha, hcolor]

theorem State.commandByte_gather {s : State} (hcursor : s.CursorOk) (hphase : s.status.phase = .gather) (j : Nat) :
    ({ s with pix := s.gathered, status := { s.status with phase := s.cfg.afterGather } } : State).commandByte j =
      s.commandByte j := by
  have hne := fun p => s.cfg.afterGather_ne (p := p)
  have hpix : s.pixelsOf s.blocksDone.toNat = s.gathered := by
    rw [State.pixelsOf_gather hphase, hcursor.originAt]
    rfl
  refine State.commandByte_phaseStep (by simp [hphase]) (hne _ (by decide) (by decide)) ?_ ?_ j
  · rw [State.alphaOf_of_ne (s := s) (by simp [hphase]), hpix]
    exact State.alphaOf_current (hne _ (by decide) (by decide)) (hne _ (by decide) (by decide))
  · rw [State.colorOf_of_ne (s := s) (by simp [hphase]), hpix]
    exact State.colorOf_current (hne _ (by decide) (by decide)) (hne _ (by decide) (by decide))

theorem State.commandByte_alphaPack {s : State} (hphase : s.status.phase = .alphaPack) (j : Nat) :
    ({ s with acc := alphaCode s.pix, status := { s.status with phase := .emitAlpha } } : State).commandByte j =
      s.commandByte j := by
  refine State.commandByte_phaseStep (by simp [hphase]) (by decide) ?_ ?_ j
  · rw [State.alphaOf_current (s := s) (by simp [hphase]) (by simp [hphase])]
    exact State.alphaOf_emitAlpha rfl
  · rw [State.colorOf_current (s := s) (by simp [hphase]) (by simp [hphase])]
    exact State.colorOf_current (by simp) (by simp)

theorem State.commandByte_quantize {s : State} (hphase : s.status.phase = .quantize) (j : Nat) :
    (s.quantizeWith Config.Q).commandByte j = s.commandByte j := by
  refine State.commandByte_phaseStep (by simp [hphase]) (by decide) ?_ ?_ j
  · rw [State.alphaOf_current (s := s) (by simp [hphase]) (by simp [hphase])]
    exact State.alphaOf_current (by simp) (by simp)
  · rw [State.colorOf_current (s := s) (by simp [hphase]) (by simp [hphase])]
    exact State.colorOf_emitColor rfl

/-- EMIT_ALPHA stores the alpha code, and the colour code of the gathered pixels is still to be written. -/
theorem State.commandByte_emitAlpha {s : State} (h : s.Inv) (hbusy : s.status.state = .busy) (hphase : s.status.phase = .emitAlpha)
    (ht : (s.stored (bytesLE64 s.acc) 8 .quantize).Inv)
    (hemitted : (s.stored (bytesLE64 s.acc) 8 .quantize).emitted = s.emitted + 8)
    (haddr : s.cfg.outBase.toNat + s.emitted + 8 ≤ 2 ^ 64) (j : Nat) :
    (s.stored (bytesLE64 s.acc) 8 .quantize).commandByte j = s.commandByte j := by
  obtain ⟨halpha, hstart⟩ := State.emitted_of_emitAlpha (h.running hbusy).phase hphase
  have hB : s.cfg.blockBytes = 16 := if_pos halpha
  refine State.commandByte_stored h hbusy ht haddr hemitted (fun i hi => ?_) (fun i hpending _ => ?_) j
  · rw [bytesLE64_length] at hi
    rw [State.commandByte_current (i := i) (by rw [hstart, hB]) (by omega) (by omega), Cfg.codeBytes_alpha halpha _ _ hi,
      State.alphaOf_emitAlpha hphase]
  · rw [bytesLE64_length, hstart, hB] at hpending
    obtain ⟨k, rfl⟩ := Nat.exists_eq_add_of_le (show 8 ≤ i by omega)
    have hcolor : (s.stored (bytesLE64 s.acc) 8 .quantize).colorOf s.blocksDone.toNat = s.colorOf s.blocksDone.toNat := by
      rw [State.colorOf_current (s := s) (by simp [hphase]) (by simp [hphase])]
      exact State.colorOf_current (by simp) (by simp)
    rw [Cfg.codeBytes_color (by rw [hB]), Cfg.codeBytes_color (by rw [hB]), hcolor]

/-- EMIT_COLOR stores the colour code, the last eight bytes of the sub-block. -/
theorem State.commandByte_emitColor {s : State} (h : s.Inv) (hbusy : s.status.state = .busy) (hphase : s.status.phase = .emitColor)
    (ht : (s.stored (bytesBE64 s.ccode) s.cursor.wpos .advance).Inv)
    (hemitted : (s.stored (bytesBE64 s.ccode) s.cursor.wpos .advance).emitted = s.emitted + 8)
    (haddr : s.cfg.outBase.toNat + s.emitted + 8 ≤ 2 ^ 64) (j : Nat) :
    (s.stored (bytesBE64 s.ccode) s.cursor.wpos .advance).commandByte j = s.commandByte j := by
  have hstart := State.emitted_of_ne_advance (s := s) (by simp [hphase])
  have hwpos := State.wpos_of_color ((State.phaseOk_color (.inr (.inl hphase))).1 (h.running hbusy).phase)
  refine State.commandByte_stored h hbusy ht haddr hemitted (fun i hi => ?_) (fun i hpending hi => ?_) j
  · rw [bytesBE64_length] at hi
    rw [State.commandByte_current (i := s.cursor.wpos.toNat + i) (by omega) (by omega) (by omega), Cfg.codeBytes_color hwpos,
      State.colorOf_emitColor hphase]
  · rw [bytesBE64_length] at hpending
    omega

/-- The last sub-block's bytes are the last of the output (41_tiler.md R137, 40_host_commands.md R112). -/
theorem State.Running.outLen_of_lastBlock {s : State} (h : s.Running) (hlast : s.lastBlock = true) :
    s.outLen.toNat = s.blocksDone.toNat * s.cfg.blockBytes + s.cfg.blockBytes := by
  have hcount : s.cfg.subBlocks s.cursor.mode = s.blocksDone.toNat + 1 := by
    cases hmode : s.cursor.mode with
    | block =>
      obtain ⟨-, -, -, hdone⟩ := (State.cursorOk_block hmode).1 h.cursor
      simp [Cfg.subBlocks, hdone]
    | image =>
      rw [← h.cursor.toNat_blocksDone_succ]
      rw [State.lastBlock, hmode] at hlast
      exact (beq_iff_eq.1 hlast).symm
  rw [h.length, Cfg.reqLen_eq, hcount, Nat.add_one_mul]

/-- ADVANCE finishes a sub-block whose bytes are all written; those of the later ones are gathered as before. -/
theorem State.commandByte_advance {s t : State} (h : s.Inv) (ht : t.Inv) (hbusy : s.status.state = .busy)
    (hphase : s.status.phase = .advance) (hexec : execAdvance s = .next t) (hframe : s.SequencerFrame t) {j : Nat}
    (hj : j < s.outLen.toNat) : t.commandByte j = s.commandByte j := by
  have hrunning := h.running hbusy
  have hfinished := State.emitted_advance hphase
  have hsucc := hrunning.cursor.toNat_blocksDone_succ
  rcases execAdvance_cases hexec with ⟨hlast, rfl⟩ | ⟨hlast, rfl⟩
  · rw [hrunning.outLen_of_lastBlock hlast, ← hfinished] at hj
    rw [State.commandByte_written hj, State.commandByte_written (hj.trans_le hframe.emitted)]
  · refine State.commandByte_congr (by rfl) (by rfl) ?_ (fun n hn => ?_) j
    · rw [State.emitted_of_ne_advance (by simp), hfinished, ← Nat.add_one_mul, ← hsucc]
      simp
    · rw [hfinished, ← Nat.add_one_mul] at hn
      have hlater : n ≠ s.blocksDone.toNat := by
        have := Nat.lt_of_mul_lt_mul_right hn
        omega
      rw [State.alphaOf_other hlater, State.colorOf_other hlater, State.alphaOf_of_ne (by simp), State.colorOf_of_ne (by simp),
        State.pixelsOf_gather rfl, hframe.pixelsAt hrunning ht, hframe.cfg, hframe.mode]
      exact ⟨rfl, rfl⟩

/-- No turn of the sequencer changes the value the command writes at an output byte. -/
theorem sequencerTurn_commandByte {s t : State} (h : s.Inv) (ht : t.Inv) (hturn : sequencerTurn s = .next t) {j : Nat}
    (hj : j < s.outLen.toNat) : t.commandByte j = s.commandByte j := by
  have hframe := sequencerTurn_frame h hturn
  rcases sequencerTurn_cases hturn with ⟨-, rfl⟩ | ⟨hbusy, ⟨hphase, hexec⟩ | ⟨hphase, hexec⟩ | ⟨hphase, hexec⟩ |
    ⟨hphase, hexec⟩ | ⟨hphase, hexec⟩ | ⟨hphase, hexec⟩⟩
  · rfl
  · rw [execGather_next hexec]
    exact State.commandByte_gather (h.running hbusy).cursor hphase j
  · cases hexec
    exact State.commandByte_alphaPack hphase j
  · obtain ⟨rfl, hemitted, haddr⟩ := execEmitAlpha_stored (h.running hbusy).phase hphase hexec
    exact State.commandByte_emitAlpha h hbusy hphase ht hemitted haddr j
  · rw [execQuantize_next hexec]
    exact State.commandByte_quantize hphase j
  · obtain ⟨rfl, hemitted, haddr⟩ := execEmitColor_stored (h.running hbusy).phase hphase hexec
    exact State.commandByte_emitColor h hbusy hphase ht hemitted haddr j
  · exact State.commandByte_advance h ht hbusy hphase hexec hframe hj

/-- A host write other than the first to the source region changes nothing of what the command still takes: drawn pixels are not
read from memory, and a byte outside the source region is none of a pixel. -/
theorem State.hostWrite_pixelsAt {s : State} (hwf : s.mem.wf) {a : BitVec 64}
    (ha : s.cfg.inSource a.toNat = false ∨ s.race.srcTainted = true) (v : Byte) (n : Nat) (o : Int × Int) :
    (s.hostWrite a v).pixelsAt n o = s.pixelsAt n o := by
  obtain ⟨w, r, hwrite, -, -, -, hkept⟩ := s.hostWrite_effect a v
  obtain ⟨htaint, hdraws⟩ := hkept ha
  rw [hwrite]
  rcases ha with hsource | hdrawn
  · refine State.pixelsAt_congr (by rfl) htaint hdraws (fun b hb => Memory.read_write_other _ _ _ _ hwf ?_) n o
    rintro rfl
    exact absurd (hsource.symm.trans hb) (by decide)
  · simp only [State.pixelsAt, htaint, hdraws, hdrawn, if_true]

theorem State.hostWrite_commandByte {s : State} (hwf : s.mem.wf) {a : BitVec 64}
    (ha : s.cfg.inSource a.toNat = false ∨ s.race.srcTainted = true) (v : Byte) (j : Nat) :
    (s.hostWrite a v).commandByte j = s.commandByte j := by
  have hpixels := State.hostWrite_pixelsAt hwf ha v
  obtain ⟨w, r, hwrite, -, hblock, -⟩ := s.hostWrite_cases a v
  rw [hwrite] at hpixels ⊢
  refine State.commandByte_congr (by rfl) hblock (by rfl) (fun n _ => ?_) j
  simp only [State.alphaOf, State.colorOf, State.pixelsOf, hpixels]
  exact ⟨rfl, rfl⟩

/-- Settles O45: no turn of the sequencer changes the value, and of the host's only a reset and the first write to the source
region. -/
theorem commandByteIsFixed : Obligations.CommandByteIsFixed := by
  intro s t h hbusy hstep hreset hwrite j hj
  obtain ⟨rest, ⟨-, hturn⟩ | ⟨e, hagenda, hturn⟩⟩ := step_cases hstep
  · have h' : State.Inv { s with agenda := rest } := h.of_unspoken s.status.ign s.pix s.acc s.ccode s.platform rest s.seen
    exact sequencerTurn_commandByte h' (stepKeepsInvariant s t h hstep) hturn hj
  · rcases hostTurn_of_busy hturn hbusy with ⟨rfl, -⟩ | ⟨a, v, rfl, rfl⟩ | ⟨_, _, _, _, _, rfl⟩
    · exact absurd hagenda (hreset rest)
    · exact State.hostWrite_commandByte (s := { s with agenda := rest }) h.memWf (hwrite a v rest hagenda) v j
    · rfl

/-! ### The output of a running command stays right (R73, 41_tiler.md R136, R140, R142) -/

/-- The bytes of a command depend on the source region alone (41_tiler.md R142). -/
theorem State.outputByte_congr {s t : State} (hcfg : t.cfg = s.cfg) (hmode : t.cursor.mode = s.cursor.mode)
    (hsource : ∀ a, s.cfg.inSource a = true → t.mem.read a = s.mem.read a) (j : Nat) : t.outputByte j = s.outputByte j := by
  simp only [State.outputByte, hcfg, hmode, gatherAt_congr hsource]

/-- The clauses of `State.DataOk` on the datapath: what each of pix, acc and ccode holds once its micro-operation has run. -/
structure State.DatapathOk (s : State) : Prop where
  pixels : s.status.phase ≠ .gather → s.pix = gatherAt s.cfg s.mem s.origin
  alpha  : s.status.phase = .emitAlpha → s.acc = alphaCode s.pix
  color  : s.status.phase = .emitColor → s.ccode = Config.Q (rgbs s.pix) s.cfg.quality

/-- Each micro-operation before ADVANCE keeps the datapath right; ADVANCE empties it. -/
theorem State.DataOk.sequencerTurn_datapath {s t : State} (h : s.DataOk) (hinv : s.Inv) (ht : t.Inv)
    (hbusy : s.status.state = .busy) (htaint : s.race.srcTainted = false) (hturn : sequencerTurn s = .next t)
    (hbusy' : t.status.state = .busy) : t.DatapathOk := by
  have hsource := (sequencerTurn_frame hinv hturn).source (hinv.running hbusy) ht
  have hkept : s.status.phase ≠ .gather → s.pix = gatherAt s.cfg t.mem s.origin := fun hphase => by
    rw [gatherAt_congr hsource, h.pixels hphase]
  rcases sequencerTurn_cases hturn with ⟨hidle, -⟩ | ⟨-, ⟨hphase, hexec⟩ | ⟨hphase, hexec⟩ | ⟨hphase, hexec⟩ |
    ⟨hphase, hexec⟩ | ⟨hphase, hexec⟩ | ⟨hphase, hexec⟩⟩
  · exact absurd hbusy hidle
  · have hne := fun p => s.cfg.afterGather_ne (p := p)
    rw [execGather_next hexec]
    refine ⟨fun _ => ?_, fun hp => absurd hp (hne _ (by decide) (by decide)), fun hp => absurd hp (hne _ (by decide) (by decide))⟩
    exact if_neg (by simp [htaint])
  · cases hexec
    exact ⟨fun _ => hkept (by simp [hphase]), fun _ => rfl, nofun⟩
  · obtain ⟨-, rfl⟩ := execEmitAlpha_next hexec
    exact ⟨fun _ => hkept (by simp [hphase]), nofun, nofun⟩
  · cases execQuantize_next hexec
    exact ⟨fun _ => hkept (by simp [hphase]), nofun, fun _ => rfl⟩
  · obtain ⟨-, rfl⟩ := execEmitColor_next hexec
    exact ⟨fun _ => hkept (by simp [hphase]), nofun, nofun⟩
  · rcases execAdvance_cases hexec with ⟨-, rfl⟩ | ⟨-, rfl⟩
    · exact nomatch hbusy'
    · exact ⟨fun hp => absurd rfl hp, nofun, nofun⟩

theorem State.Right.sequencerTurn {s t : State} (h : s.Right) (hinv : s.Inv) (ht : t.Inv) (hturn : sequencerTurn s = .next t) :
    t.Right := by
  intro hbusy' huntouched'
  by_cases hbusy : s.status.state = .busy
  case neg =>
    rw [sequencerTurn_idle hbusy] at hturn
    cases hturn
    exact h hbusy' huntouched'
  have hframe := sequencerTurn_frame hinv hturn
  have hrunning := hinv.running hbusy
  have hrunning' := ht.running hbusy'
  have huntouched : s.Untouched := by
    rw [State.Untouched, hframe.race] at huntouched'
    exact huntouched'
  have hdata := h hbusy huntouched
  obtain ⟨hpixels, halpha, hcolor⟩ := hdata.sequencerTurn_datapath hinv ht hbusy huntouched.1 hturn hbusy'
  refine ⟨hpixels, halpha, hcolor, fun j hj => ?written, fun j hj hlen => ?untilNow⟩
  case written =>
    have hlen : j < s.outLen.toNat := hframe.outLen ▸ hj.trans_le hrunning'.emitted_le
    calc t.mem.read (t.cfg.outBase.toNat + j)
        = t.race.blockOut.read (t.cfg.outBase.toNat + j) := hrunning'.recorded j hj (by simp [huntouched'.2])
      _ = t.commandByte j := (State.commandByte_written hj).symm
      _ = s.commandByte j := sequencerTurn_commandByte hinv ht hturn hlen
      _ = s.outputByte j := hdata.commandByte hrunning huntouched j
      _ = t.outputByte j := (State.outputByte_congr hframe.cfg hframe.mode (hframe.source hrunning ht) j).symm
  case untilNow =>
    have hbefore : t.race.memBefore = s.race.memBefore := by rw [hframe.race]
    rw [hframe.cfg, hbefore, ← hdata.untilNow j (hframe.emitted.trans hj) (hframe.outLen ▸ hlen)]
    rcases hframe.mem (s.cfg.outBase.toNat + j) with hsame | ⟨-, -, hhigh⟩
    · exact hsame
    · omega

/-- A host write that leaves the record clean is one to neither region (70_reset_and_hazards.md R216, R218). -/
theorem State.hostWrite_untouched {s : State} {a : BitVec 64} {v : Byte} (hbusy : s.status.state = .busy)
    (h : (s.hostWrite a v).Untouched) :
    s.cfg.inSource a.toNat = false ∧ s.inOutput a.toNat = false ∧ s.hostWrite a v = { s with mem := s.mem.write a.toNat v } := by
  obtain ⟨htaint, hhost⟩ := h
  obtain ⟨w, r, hwrite, -, hmarks, hrecords, -⟩ := s.hostWrite_effect a v
  rw [hwrite] at htaint hhost
  have hsource : s.cfg.inSource a.toNat = false := by
    by_contra hin
    exact absurd (htaint.symm.trans (hmarks hbusy (by simpa using hin))) (by decide)
  have hout : s.inOutput a.toNat = false := by
    by_contra hin
    exact List.ne_nil_of_mem (hrecords hbusy hsource (by simpa using hin)) hhost
  exact ⟨hsource, hout, State.hostWrite_of_elsewhere (.inr ⟨hsource, hout⟩) v⟩

/-- A write of memory outside both regions keeps the output right. -/
theorem State.DataOk.write {s : State} (h : s.DataOk) (hrunning : s.Running) (hwf : s.mem.wf) {a : Nat} (v : Byte)
    (hsource : s.cfg.inSource a = false) (hout : s.inOutput a = false) : State.DataOk { s with mem := s.mem.write a v } := by
  have hsame : ∀ b, s.cfg.inSource b = true ∨ s.inOutput b = true → (s.mem.write a v).read b = s.mem.read b := by
    intro b hb
    refine Memory.read_write_other _ _ _ _ hwf ?_
    rintro rfl
    simp [hsource, hout] at hb
  have hin : ∀ j < s.outLen.toNat, s.inOutput (s.cfg.outBase.toNat + j) = true := by simp [State.inOutput]
  exact {
    pixels := fun hphase => (h.pixels hphase).trans (gatherAt_congr (fun b hb => hsame b (.inl hb)) _).symm
    alpha := h.alpha
    color := h.color
    written := fun j hj => by
      rw [State.outputByte_congr (s := s) (by rfl) (by rfl) fun b hb => hsame b (.inl hb)]
      exact (hsame _ (.inr (hrunning.inOutput_of_emitted hj))).trans (h.written j hj)
    untilNow := fun j hj hlen => (hsame _ (.inr (hin j hlen))).trans (h.untilNow j hj hlen) }

/-- A command just started has written nothing. -/
theorem State.init_dataOk (m : Mode) (s : State) : (s.init m).DataOk where
  pixels := fun hphase => absurd rfl hphase
  alpha := fun hphase => nomatch hphase
  color := fun hphase => nomatch hphase
  written := fun j hj => by
    rw [State.emitted_of_ne_advance (by simp)] at hj
    simp at hj
  untilNow := fun _ _ _ => rfl

/-- A turn that makes the block BUSY starts a command. -/
theorem hostTurn_starts {e : HostEvent} {s t : State} (h : hostTurn e s = .next t) (hs : s.status.state ≠ .busy)
    (ht : t.status.state = .busy) : ∃ m u, t = State.init m u := by
  rcases hostTurn_status h with hsame | ⟨-, rfl⟩ | ⟨_, _, -, ⟨-, hcmd⟩ | ⟨hbusy, -⟩⟩
  · exact absurd (hsame ▸ ht) hs
  · exact nomatch ht
  · rcases cmdWrite_after hcmd with ⟨-, rfl⟩ | ⟨-, rfl | rfl⟩ | ⟨-, rfl | ⟨_, -, rfl⟩⟩ | ⟨-, rfl⟩ | ⟨-, -, m, ⟨-, rfl⟩ | ⟨-, rfl⟩⟩
    · exact absurd ht hs
    · exact absurd ht hs
    · exact nomatch ht
    · exact absurd ht hs
    · exact nomatch ht
    · exact nomatch ht
    · exact nomatch ht
    · exact ⟨m, _, rfl⟩
  · exact absurd hbusy hs

theorem State.Right.hostTurn {e : HostEvent} {s t : State} (h : s.Right) (hinv : s.Inv) (hturn : hostTurn e s = .next t) :
    t.Right := by
  intro hbusy' huntouched'
  by_cases hbusy : s.status.state = .busy
  · rcases hostTurn_of_busy hturn hbusy with ⟨-, rfl⟩ | ⟨a, v, -, rfl⟩ | ⟨_, _, _, _, _, rfl⟩
    · exact nomatch hbusy'
    · obtain ⟨hsource, hout, hwrite⟩ := State.hostWrite_untouched hbusy huntouched'
      rw [hwrite] at huntouched' ⊢
      exact (h hbusy huntouched').write (hinv.running hbusy) hinv.memWf v hsource hout
    · exact { h hbusy huntouched' with }
  · obtain ⟨m, u, rfl⟩ := hostTurn_starts hturn hbusy hbusy'
    exact State.init_dataOk m u

/-- Settles O58: the turn is taken off the agenda, of which `Right` does not speak, and each agent's turn keeps it. -/
theorem stepKeepsOutputRight : Obligations.StepKeepsOutputRight := by
  intro s t hinv h hstep
  have hinv' := fun rest => hinv.of_unspoken s.status.ign s.pix s.acc s.ccode s.platform rest s.seen
  have h' : ∀ rest, State.Right { s with agenda := rest } := fun rest hbusy huntouched => { h hbusy huntouched with }
  obtain ⟨rest, ⟨-, hturn⟩ | ⟨e, -, hturn⟩⟩ := step_cases hstep
  · exact (h' rest).sequencerTurn (hinv' rest) (stepKeepsInvariant s t hinv hstep) hturn
  · exact (h' rest).hostTurn (hinv' rest) hturn

end Sys2Proof.Machine

/-! PROOF. The statements of 30_encoding.md: command words and micro-operation selections (R81 to R85), the registers a write and
a W64 line set (R86, R91), a WAIT's poll and a script's turns (R92), and the operands of a running command (R83). -/

namespace Sys2Proof.Machine

/-! ### The words that decode (R81, R84) -/

theorem roundTrip (i : Instr) : Laws.RoundTrip.Statement i := by
  open Laws.RoundTrip in
  cases i
  exacts [nop, encodeImage, encodeBlock, releaseBuffer, ackError, gather, alphaPack, emitAlpha, quantize, emitColor, advance]

/-- A word is its RSV field over its OPCODE field (30_encoding.md R80). -/
theorem word_eq_rsv_append_opcode (w : Word) : w.extractLsb' 4 28 ++ w.extractLsb' 0 4 = w := by
  rw [BitVec.extractLsb'_append_extractLsb'_eq_extractLsb' (show 4 = 0 + 4 from rfl)]
  exact BitVec.extractLsb'_eq_self

theorem encode_of_decodeCmd {w : Word} {i : Instr} (h : decodeCmd w = .ok i) : w = encode i := by
  rw [← word_eq_rsv_append_opcode w]
  unfold decodeCmd at h
  split at h
  · cases h
  next hrsv =>
    rw [Decidable.not_not.1 hrsv]
    repeat' split at h
    all_goals cases h
    all_goals rw [‹w.extractLsb' 0 4 = _›]; rfl

/-- The command decoder's words are the five encodings, exactly. -/
theorem decodeCmd_iff {w : Word} {i : Instr} : decodeCmd w = .ok i ↔ i.format = .cmd ∧ w = encode i := by
  refine ⟨fun h => ⟨decodeCmd_format h, encode_of_decodeCmd h⟩, ?_⟩
  rintro ⟨hformat, rfl⟩
  obtain ⟨-, -, hdecode, -⟩ := roundTrip i
  rwa [hformat] at hdecode

/-- A STATUS word is its PHASE and STATE fields with the two fields between and above them (10_state.md R22). -/
theorem word_eq_append_phase_state (w : Word) :
    w.extractLsb' 7 25 ++ w.extractLsb' 4 3 ++ w.extractLsb' 2 2 ++ w.extractLsb' 0 2 = w := by
  rw [BitVec.extractLsb'_append_extractLsb'_eq_extractLsb' (show 7 = 4 + 3 from rfl),
    BitVec.extractLsb'_append_extractLsb'_eq_extractLsb' (show 4 = 2 + 2 from rfl),
    BitVec.extractLsb'_append_extractLsb'_eq_extractLsb' (show 2 = 0 + 2 from rfl)]
  exact BitVec.extractLsb'_eq_self

/-- The mask of a selection keeps STATE and PHASE and clears every other bit of the STATUS word (30_encoding.md R84). -/
theorem and_phaseMask (w : Word) :
    w &&& Format.phase.mask = 0#25 ++ w.extractLsb' 4 3 ++ 0#2 ++ w.extractLsb' 0 2 :=
  calc w &&& Format.phase.mask
      = (w.extractLsb' 7 25 ++ w.extractLsb' 4 3 ++ w.extractLsb' 2 2 ++ w.extractLsb' 0 2) &&&
          (0#25 ++ BitVec.allOnes 3 ++ 0#2 ++ BitVec.allOnes 2) := by rw [word_eq_append_phase_state]; rfl
    _ = 0#25 ++ w.extractLsb' 4 3 ++ 0#2 ++ w.extractLsb' 0 2 := by
      simp only [BitVec.and_append, BitVec.and_allOnes, BitVec.and_zero]

/-- No bit outside the mask plays a part in a selection. -/
theorem decodePhase_and_mask (w : Word) : decodePhase (w &&& Format.phase.mask) = decodePhase w := by
  have hstate : (w &&& Format.phase.mask).extractLsb' 0 2 = w.extractLsb' 0 2 := by
    rw [BitVec.extractLsb'_and]; exact BitVec.and_allOnes
  have hphase : (w &&& Format.phase.mask).extractLsb' 4 3 = w.extractLsb' 4 3 := by
    rw [BitVec.extractLsb'_and]; exact BitVec.and_allOnes
  rw [decodePhase, decodePhase, hstate, hphase]

theorem encode_of_decodePhase {w : Word} {i : Instr} (h : decodePhase w = .ok i) :
    i.format = .phase ∧ w &&& Format.phase.mask = encode i := by
  rw [and_phaseMask]
  unfold decodePhase at h
  split at h
  · cases h
  next hstate =>
    rw [Decidable.not_not.1 hstate]
    repeat' split at h
    all_goals cases h
    all_goals rw [‹w.extractLsb' 4 3 = _›]; exact ⟨rfl, rfl⟩

/-- A STATUS word selects a micro-operation exactly when the bits its row fixes are those of its encoding. -/
theorem decodePhase_iff {w : Word} {i : Instr} :
    decodePhase w = .ok i ↔ i.format = .phase ∧ w &&& Format.phase.mask = encode i := by
  refine ⟨encode_of_decodePhase, ?_⟩
  rintro ⟨hformat, hmask⟩
  obtain ⟨-, -, hdecode, -⟩ := roundTrip i
  rw [hformat] at hdecode
  rw [← decodePhase_and_mask, hmask]
  exact hdecode

/-- A command word selects no micro-operation: its PHASE bits are 0. -/
theorem decodePhase_of_command {w : Word} {i j : Instr} (hcmd : decodeCmd w = .ok i) : decodePhase w ≠ .ok j := by
  obtain ⟨hformat, rfl⟩ := decodeCmd_iff.1 hcmd
  cases i <;> first | exact absurd hformat (by decide) | exact nofun

theorem decodeTable_iff {w : Word} {i : Instr} : decodeTable w = .ok i ↔ decodeCmd w = .ok i ∨ decodePhase w = .ok i := by
  unfold decodeTable
  split
  next j hcmd => rw [hcmd, or_iff_left (decodePhase_of_command hcmd)]
  next e hcmd => rw [hcmd, or_iff_right nofun]

/-- Settles O3: an instruction has one of the two forms, and the decoder of that form is exact. -/
theorem decodeAgreesWithEncode : Obligations.DecodeAgreesWithEncode := by
  intro w i
  rw [decodeTable_iff, decodeCmd_iff, decodePhase_iff]
  cases i.format with
  | cmd =>
    have hmask : w &&& Format.cmd.mask = w := BitVec.and_allOnes
    simp [hmask]
  | phase => simp

/-- Settles O2: `decodeCmd_iff`, one command at a time. -/
theorem commandWordsAreExact : Obligations.CommandWordsAreExact := by
  intro w i
  rw [decodeCmd_iff]
  cases i <;> simp [Instr.format, encode]

/-- Settles O1: the decoders compute. -/
theorem tabledWordsDecode : Obligations.TabledWordsDecode :=
  ⟨rfl, rfl, rfl, rfl, rfl, rfl, rfl, rfl⟩

/-! ### The micro-operation a step runs (R84) -/

theorem decodePhase_status {t : Status} {i : Instr} (hbusy : t.state = .busy) (hformat : i.format = .phase)
    (hphase : t.phase = i.phase) : decodePhase t.word = .ok i := by
  rw [decodePhase_word, if_neg (not_not.2 hbusy), hphase]
  cases i <;> first | exact absurd hformat (by decide) | rfl

theorem sequencerTurn_selected {s : State} {i : Instr} (h : decodePhase s.status.word = .ok i) : sequencerTurn s = exec i s := by
  rw [sequencerTurn, h]

/-- Settles O16: the turn taken, the sequencer runs what STATUS selects, and the agenda is no part of STATUS. -/
theorem stepRunsSelectedMicroOp : Obligations.StepRunsSelectedMicroOp := by
  intro s i rest hbusy hformat hphase
  have hselect := decodePhase_status hbusy hformat hphase
  exact ⟨hselect, fun ha => (step_sequencer ha).trans (sequencerTurn_selected (s := { s with agenda := rest }) hselect),
    fun ha => (step_nil ha).trans (sequencerTurn_selected hselect)⟩

/-! ### Illegal command words (R82) -/

theorem decodeCmd_illegal {w : Word} (h : w.extractLsb' 4 28 ≠ 0 ∨ 5 ≤ (w.extractLsb' 0 4).toNat) :
    ∃ e, decodeCmd w = .error e := by
  cases hdecode : decodeCmd w with
  | error e => exact ⟨e, rfl⟩
  | ok i =>
    obtain ⟨hformat, rfl⟩ := decodeCmd_iff.1 hdecode
    cases i <;> first | exact absurd hformat (by decide) | exact absurd h (by decide)

theorem step_cmdWrite {s : State} {w : Word} {rest : List Turn} (ha : s.agenda = .host (.port (.write 32 0 w)) :: rest) :
    step s = cmdWrite w { s with agenda := rest } := step_host ha

theorem cmdWrite_illegal {w : Word} (h : w.extractLsb' 4 28 ≠ 0 ∨ 5 ≤ (w.extractLsb' 0 4).toNat) (s : State) :
    cmdWrite w s = .next s.illegalCommand := by
  obtain ⟨e, he⟩ := decodeCmd_illegal h
  rw [cmdWrite, he]

theorem State.illegalCommand_accepted {s : State} (h : s.status.state = .idle ∨ s.status.state = .done) :
    s.illegalCommand = (s.setIgn false).raiseError .illegalCmd := State.dispatch_accepts h

theorem State.illegalCommand_ignored {s : State} (h : s.status.state = .busy ∨ s.status.state = .error) :
    s.illegalCommand = s.setIgn true := h.elim State.dispatch_busy State.dispatch_error

/-- Settles O23: no such word is one of the five, and the dispatch frame says what a word that selects nothing does. -/
theorem illegalCommandWord : Obligations.IllegalCommandWord := by
  intro s w rest hillegal ha
  have hstep : step s = .next (State.illegalCommand { s with agenda := rest }) :=
    (step_cmdWrite ha).trans (cmdWrite_illegal hillegal _)
  exact ⟨fun hstate => hstep.trans (congrArg _ (State.illegalCommand_accepted hstate)),
    fun hstate => hstep.trans (congrArg _ (State.illegalCommand_ignored hstate))⟩

/-! ### A write to a register while not BUSY (R86) -/

theorem write_legal (r : Reg) (v : Word) : (Access.write 32 r.offset v).legal = true := by cases r <;> rfl

/-- While not BUSY a read-write register takes the write (40_host_commands.md R100). -/
theorem portAccess_writeReg {s : State} {r : Reg} (hr : r.access = .readWrite) (hs : s.status.state ≠ .busy) (v : Word) :
    portAccess (.write 32 r.offset v) s = .next { s with cfg := s.cfg.writeReg v r } := by
  rw [portAccess, if_pos (write_legal r v)]
  show portWrite r.offset v s = _
  rw [portWrite_register, hr]
  show Host.Outcome.next (s.configWrite r v) = _
  rw [State.configWrite, if_neg (mt State.isBusy_iff.1 hs)]

theorem step_writeReg {s : State} {r : Reg} {v : Word} {rest : List Turn}
    (ha : s.agenda = .host (.port (.write 32 r.offset v)) :: rest) (hr : r.access = .readWrite) (hs : s.status.state ≠ .busy) :
    step s = .next { s with cfg := s.cfg.writeReg v r, agenda := rest } :=
  (step_host ha).trans (portAccess_writeReg (s := { s with agenda := rest }) hr hs v)

/-- Keeping the low bits of a word is masking it. -/
theorem setWidth_extractLsb'_low (v : Word) {n : Nat} (hn : n ≤ 32) :
    (v.extractLsb' 0 n).setWidth 32 = v &&& BitVec.ofNat 32 (2 ^ n - 1) := by
  have hpow : 2 ^ n ≤ 2 ^ 32 := Nat.pow_le_pow_right (by decide) hn
  have hpos : 0 < 2 ^ n := Nat.two_pow_pos n
  refine BitVec.eq_of_toNat_eq ?_
  rw [BitVec.toNat_and, BitVec.toNat_ofNat, Nat.mod_eq_of_lt (by omega), Nat.and_two_pow_sub_one_eq_mod,
    BitVec.toNat_setWidth, BitVec.extractLsb'_toNat, Nat.shiftRight_zero, Nat.mod_eq_of_lt]
  exact (Nat.mod_lt _ hpos).trans_le hpow

theorem usedMask_of_readWrite {r : Reg} (hr : r.access = .readWrite) :
    Reg.usedMask r = if r = .width ∨ r = .height then 0x0000FFFF else if r = .config then 0x00000007 else 0xFFFFFFFF := by
  cases r <;> first | rfl | exact absurd hr (by decide)

theorem State.readReg_writeReg_same (s : State) {r : Reg} (hr : r.access = .readWrite) (v : Word) :
    State.readReg { s with cfg := s.cfg.writeReg v r } r = v &&& Reg.usedMask r := by
  have hall : v &&& 0xFFFFFFFF = v := BitVec.and_allOnes
  cases r with
  | cmd | status | outLenLo | outLenHi | blocksDone => exact absurd hr (by decide)
  | width | height => exact setWidth_extractLsb'_low v (n := 16) (by decide)
  | config => exact setWidth_extractLsb'_low v (n := 3) (by decide)
  | blockX | blockY => exact hall.symm
  | srcBaseLo | srcLenLo | outBaseLo | outCapLo => exact (loHalf_withLo ..).trans hall.symm
  | srcBaseHi | srcLenHi | outBaseHi | outCapHi => exact (hiHalf_withHi ..).trans hall.symm

/-- Writing one half of a 64-bit register keeps the other half; every other register is a field of its own. -/
theorem State.readReg_writeReg_other (s : State) {r r' : Reg} (hne : r' ≠ r) (v : Word) :
    State.readReg { s with cfg := s.cfg.writeReg v r } r' = s.readReg r' := by
  cases r with
  | cmd | status | outLenLo | outLenHi | blocksDone => rfl
  | width | height | config | blockX | blockY => cases r' <;> first | rfl | exact absurd rfl hne
  | srcBaseLo | srcLenLo | outBaseLo | outCapLo =>
    cases r' <;> first | rfl | exact absurd rfl hne | exact hiHalf_withLo ..
  | srcBaseHi | srcLenHi | outBaseHi | outCapHi =>
    cases r' <;> first | rfl | exact absurd rfl hne | exact loHalf_withHi ..

/-- Settles O9: the register takes the used bits of the word, and of the registers only it reads otherwise. -/
theorem portWriteKeepsUsedBits : Obligations.PortWriteKeepsUsedBits := by
  intro s r v rest hr hs ha
  refine ⟨_, step_writeReg ha hr hs, rfl, ?_, fun r' hne => ?_⟩
  · rw [← usedMask_of_readWrite hr]
    exact State.readReg_writeReg_same { s with agenda := rest } hr v
  · exact State.readReg_writeReg_other { s with agenda := rest } hne v

/-! ### A script's writes while not BUSY (R91) -/

/-- The pace of the first of the remaining transactions: none where the paces have run out (log 27). -/
def firstPace (paces : List Pace) : Pace := paces.headD { before := 0, gaps := [] }

theorem paced_cons (paces : List Pace) (x : Transaction) (xs : List Transaction) :
    paced paces (x :: xs) =
      List.replicate (firstPace paces).before .sequencer ++ .host (eventOf (firstPace paces).gaps x) :: paced paces.tail xs := by
  cases paces <;> rfl

/-- While not BUSY the sequencer's pending turns pass and change nothing (60_exceptions.md R204). -/
theorem run_sequencers {s : State} (hs : s.status.state ≠ .busy) {n : Nat} {rest : List Turn}
    (ha : s.agenda = List.replicate n .sequencer ++ rest) (k : Nat) :
    Host.Core.run core (n + k) s = Host.Core.run core k { s with agenda := rest } := by
  induction n generalizing s with
  | zero => rw [Nat.zero_add, ← show s.agenda = rest from ha]
  | succ n ih =>
    have hstep : step s = .next { s with agenda := List.replicate n .sequencer ++ rest } :=
      (step_sequencer ha).trans (sequencerTurn_idle hs)
    rw [Nat.add_right_comm, run_succ hstep]
    exact ih (s := { s with agenda := List.replicate n .sequencer ++ rest }) hs rfl

/-- The configuration registers after a list of writes. -/
def Cfg.writeRegs (c : Cfg) (ws : List (Reg × Word)) : Cfg := ws.foldl (fun c w => c.writeReg w.2 w.1) c

/-- A list of register writes, played at any pace while not BUSY, leaves the configuration it writes and no pending turn. -/
theorem run_paced_writes {s : State} {ws : List (Reg × Word)} (hws : ∀ w ∈ ws, w.1.access = .readWrite)
    (hs : s.status.state ≠ .busy) {paces : List Pace} (ha : s.agenda = paced paces (ws.map fun w => writeOf w.1 w.2)) :
    Host.Core.run core s.agenda.length s = .next { s with cfg := s.cfg.writeRegs ws, agenda := [] } := by
  induction ws generalizing s paces with
  | nil =>
    rw [List.map_nil, paced] at ha
    have hlength : s.agenda.length = 0 := by rw [ha]; rfl
    rw [hlength, Cfg.writeRegs, List.foldl_nil, ← ha]
    rfl
  | cons w ws ih =>
    rw [List.map_cons, paced_cons] at ha
    obtain ⟨hw, hws⟩ := List.forall_mem_cons.1 hws
    have hstep (gaps : List Nat) (rest : List Turn) :
        step { s with agenda := .host (eventOf gaps (writeOf w.1 w.2)) :: rest } =
          .next { s with cfg := s.cfg.writeReg w.2 w.1, agenda := rest } := step_writeReg rfl hw hs
    rw [ha, List.length_append, List.length_replicate, run_sequencers hs ha, List.length_cons, run_succ (hstep _ _)]
    exact ih (s := { s with cfg := s.cfg.writeReg w.2 w.1, agenda := _ }) hws hs rfl

/-- A configuration with one of the 64-bit registers set. -/
def Cfg.set64 (c : Cfg) (v : BitVec 64) : Reg64 → Cfg
  | .srcBase => { c with srcBase := v }
  | .srcLen => { c with srcLen := v }
  | .outBase => { c with outBase := v }
  | .outCap => { c with outCap := v }

theorem Cfg.writeRegs_pair (c : Cfg) (x : Reg64) (v : BitVec 64) :
    c.writeRegs [(x.lo, loHalf v), (x.hi, hiHalf v)] = c.set64 v x := by
  cases x <;> simp [Cfg.writeRegs, Cfg.writeReg, Cfg.set64, Reg64.lo, Reg64.hi, withHi_withLo]

theorem halves_readWrite (x : Reg64) : x.lo.access = .readWrite ∧ x.hi.access = .readWrite := by cases x <;> exact ⟨rfl, rfl⟩

/-- Settles O10: the line is the writes of its two halves, which leave the value they were cut from. -/
theorem pairWriteSetsRegister : Obligations.PairWriteSetsRegister := by
  intro s paces x v hs ha
  obtain ⟨hlo, hhi⟩ := halves_readWrite x
  refine ⟨_, run_paced_writes (ws := [(x.lo, loHalf v), (x.hi, hiHalf v)]) (by simp [hlo, hhi]) hs ha, rfl, ?_⟩
  have hpair := s.cfg.writeRegs_pair x v
  cases x <;> exact hpair

/-! ### WAIT (R92) -/

/-- A poll reads STATUS; it ends at a match, and else is pending again behind turns of the sequencer. -/
theorem State.poll_cases (targets : List RunState) (gaps : List Nat) (s : State) :
    (s.status.state ∈ targets ∧ s.poll targets gaps = s.portRead Reg.status.offset) ∨
    (s.status.state ∉ targets ∧ ∃ n gaps', s.poll targets gaps =
      { s.portRead Reg.status.offset with
        agenda := List.replicate n .sequencer ++ .host (.wait targets gaps') :: s.agenda }) := by
  unfold State.poll
  split
  next hmatch => exact .inl ⟨List.contains_iff_mem.1 hmatch, rfl⟩
  next hmatch =>
    refine .inr ⟨mt List.contains_iff_mem.2 hmatch, ?_⟩
    cases gaps with
    | nil => exact ⟨1, [], rfl⟩
    | cons g gs => exact ⟨g, gs, rfl⟩

/-- Settles O48: the turn taken, the poll is one of the two of `State.poll_cases`, and STATUS is the register at offset 4. -/
theorem waitPollsStatus : Obligations.WaitPollsStatus := by
  intro s targets gaps rest ha
  refine ⟨_, step_host ha, ?_⟩
  rcases State.poll_cases targets gaps { s with agenda := rest } with ⟨hmatch, hpoll⟩ | ⟨hmatch, n, gaps', hpoll⟩
  · rw [hpoll]
    exact ⟨rfl, fun _ => rfl, fun h => absurd hmatch h⟩
  · rw [hpoll]
    exact ⟨rfl, fun h => absurd h hmatch, fun _ => ⟨n, gaps', rfl⟩⟩

/-! ### Scripts as turns (R92, 40_host_commands.md R100) -/

/-- One more turn of the sequencer first is a pace with one more turn before its first transaction, or one more at the end. -/
theorem sequencer_cons_paced (paces : List Pace) (xs : List Transaction) (n : Nat) :
    ∃ paces' n', Turn.sequencer :: (paced paces xs ++ List.replicate n .sequencer) =
      paced paces' xs ++ List.replicate n' .sequencer := by
  cases xs with
  | nil => exact ⟨[], n + 1, by simp [paced, List.replicate_succ]⟩
  | cons x xs =>
    refine ⟨{ firstPace paces with before := (firstPace paces).before + 1 } :: paces.tail, n, ?_⟩
    rw [paced_cons, paced_cons]
    rfl

/-- A turn that plays a transaction is its event, with some gaps. -/
theorem Turn.eq_eventOf {u : Turn} {x : Transaction} (h : u.transaction = some x) : ∃ gaps, u = .host (eventOf gaps x) := by
  unfold Turn.transaction at h
  split at h <;> cases h
  · exact ⟨[], rfl⟩
  next targets gaps => exact ⟨gaps, rfl⟩

/-- Turns of the sequencer and of a script are the transactions they play, at some pace. -/
theorem exists_paced {turns : List Turn} (h : ∀ u ∈ turns, u = .sequencer ∨ u.transaction ≠ none) :
    ∃ paces n, turns = paced paces (turns.filterMap Turn.transaction) ++ List.replicate n .sequencer := by
  induction turns with
  | nil => exact ⟨[], 0, rfl⟩
  | cons u us ih =>
    obtain ⟨hu, hus⟩ := List.forall_mem_cons.1 h
    obtain ⟨paces, n, heq⟩ := ih hus
    rcases hu with rfl | hu
    · obtain ⟨paces', n', hcons⟩ := sequencer_cons_paced paces (us.filterMap Turn.transaction) n
      exact ⟨paces', n', (congrArg _ heq).trans hcons⟩
    · obtain ⟨x, hx⟩ := Option.ne_none_iff_exists'.1 hu
      obtain ⟨gaps, rfl⟩ := Turn.eq_eventOf hx
      refine ⟨{ before := 0, gaps := gaps } :: paces, n, ?_⟩
      rw [List.filterMap_cons_some hx, paced_cons]
      exact congrArg _ heq

/-- Settles O49: the paces add turns of the sequencer alone, and every way to add them is a pace. -/
theorem scriptIsItsTransactions : Obligations.ScriptIsItsTransactions := by
  intro ls
  refine ⟨fun paces => paced_transactions paces _, fun turns hturns hplayed => ?_⟩
  obtain ⟨paces, n, heq⟩ := exists_paced hturns
  rw [hplayed] at heq
  exact ⟨paces, n, heq⟩

/-! ### The operands of a running command (R83, 40_host_commands.md R104) -/

/-- Two states with the same operands of a command: the configuration registers, OUT_LEN and the mode. -/
def State.SameOperands (s t : State) : Prop := t.cfg = s.cfg ∧ t.outLen = s.outLen ∧ t.cursor.mode = s.cursor.mode

theorem sequencerTurn_operands {s t : State} (h : sequencerTurn s = .next t) : s.SameOperands t := by
  rcases sequencerTurn_cases h with ⟨-, rfl⟩ | ⟨-, ⟨-, h⟩ | ⟨-, h⟩ | ⟨-, h⟩ | ⟨-, h⟩ | ⟨-, h⟩ | ⟨-, h⟩⟩
  · exact ⟨rfl, rfl, rfl⟩
  · rw [execGather_next h]; exact ⟨rfl, rfl, rfl⟩
  · cases h; exact ⟨rfl, rfl, rfl⟩
  · rw [(execEmitAlpha_next h).2]; exact ⟨rfl, rfl, rfl⟩
  · rw [execQuantize_next h]; exact ⟨rfl, rfl, rfl⟩
  · rw [(execEmitColor_next h).2]; exact ⟨rfl, rfl, rfl⟩
  · rcases execAdvance_cases h with ⟨-, rfl⟩ | ⟨-, rfl⟩
    · exact ⟨rfl, rfl, rfl⟩
    · exact ⟨rfl, rfl, Cursor.following_mode ..⟩

theorem hostTurn_operands {e : HostEvent} {s t : State} (h : hostTurn e s = .next t) (hbusy : s.status.state = .busy)
    (he : e ≠ .reset) : s.SameOperands t := by
  rcases hostTurn_of_busy h hbusy with ⟨rfl, -⟩ | ⟨a, v, -, rfl⟩ | ⟨_, _, _, _, _, rfl⟩
  · exact absurd rfl he
  · obtain ⟨_, _, hwrite, -⟩ := s.hostWrite_cases a v
    rw [hwrite]
    exact ⟨rfl, rfl, rfl⟩
  · exact ⟨rfl, rfl, rfl⟩

/-- Settles O53: no micro-operation has an operand of the command among what it changes, and while BUSY no host turn but a
reset. -/
theorem runningOperandsConstant : Obligations.RunningOperandsConstant := by
  intro s t hbusy hstep hreset
  obtain ⟨rest, ⟨-, hturn⟩ | ⟨e, hagenda, hturn⟩⟩ := step_cases hstep
  · exact sequencerTurn_operands (s := { s with agenda := rest }) hturn
  · refine hostTurn_operands (s := { s with agenda := rest }) hturn hbusy ?_
    rintro rfl
    exact hreset rest hagenda

end Sys2Proof.Machine

/-! PROOF. The statements of 40_host_commands.md: the register port (R101 to R104, 30_encoding.md R87), the five commands in the
four states (R103, R105 to R109, R117, R118), the command start (R110 to R116), and the faults the invariant rules out (R113,
30_encoding.md R85, 42_block_encoder.md R159). -/

namespace Sys2Proof.Machine

/-! ### Reads and ignored writes of the port (R101, R102, R104) -/

/-- No register lies at a reserved offset or from 0x50 on (30_encoding.md R87). -/
theorem offset_mapped (r : Reg) : r.offset ≠ 0x1C ∧ r.offset ≠ 0x4C ∧ r.offset < 0x50 := by cases r <;> decide

theorem regAt_unmapped {offset : Nat} (h : offset = 0x1C ∨ offset = 0x4C ∨ 0x50 ≤ offset) : regAt offset = none := by
  cases hreg : regAt offset with
  | none => rfl
  | some r =>
    obtain ⟨h1C, h4C, hlow⟩ := offset_mapped r
    rw [regAt_some hreg] at h1C h4C hlow
    omega

theorem step_read {s : State} {offset : Nat} {rest : List Turn} (haligned : offset % 4 = 0)
    (ha : s.agenda = .host (.port (.read 32 offset)) :: rest) :
    step s = .next (State.portRead offset { s with agenda := rest }) :=
  (step_host ha).trans (if_pos (by simp [Access.legal, haligned]))

theorem step_write {s : State} {offset : Nat} {v : Word} {rest : List Turn} (haligned : offset % 4 = 0)
    (ha : s.agenda = .host (.port (.write 32 offset v)) :: rest) :
    step s = portWrite offset v { s with agenda := rest } :=
  (step_host ha).trans (if_pos (by simp [Access.legal, haligned]))

theorem portWrite_unmapped {offset : Nat} (h : regAt offset = none) (v : Word) (s : State) : portWrite offset v s = .next s := by
  rw [portWrite, h]

theorem portWrite_readOnly {r : Reg} (h : r.access = .readOnly) (v : Word) (s : State) : portWrite r.offset v s = .next s := by
  rw [portWrite_register, h]

theorem State.readPort_unmapped {offset : Nat} (h : regAt offset = none) (s : State) : s.readPort offset = 0 := by
  rw [State.readPort, h]

theorem State.readPort_offset (s : State) (r : Reg) : s.readPort r.offset = s.readReg r := by
  rw [State.readPort, regAt_offset]

theorem offset_aligned (r : Reg) : r.offset % 4 = 0 := by cases r <;> rfl

/-- Settles O12: the first four offsets are those of the read-only registers, and no register lies at the others. -/
theorem readOnlyAndReservedOffsets : Obligations.ReadOnlyAndReservedOffsets := by
  intro s offset v rest haligned
  refine ⟨fun hoffset ha => (step_write haligned ha).trans ?_, fun hoffset ha => (step_read haligned ha).trans ?_⟩
  · rcases hoffset with rfl | rfl | rfl | rfl | hunmapped
    · exact portWrite_readOnly (r := .status) rfl v _
    · exact portWrite_readOnly (r := .outLenLo) rfl v _
    · exact portWrite_readOnly (r := .outLenHi) rfl v _
    · exact portWrite_readOnly (r := .blocksDone) rfl v _
    · exact portWrite_unmapped (regAt_unmapped hunmapped) v _
  · rw [State.portRead, State.readPort_unmapped (regAt_unmapped hoffset)]

/-- Settles O13: the read at a register's offset answers `State.readReg`, whose values are the ones listed. -/
theorem portReadHasNoSideEffect : Obligations.PortReadHasNoSideEffect := by
  intro s r rest ha
  rw [step_read (offset_aligned r) ha, State.portRead, State.readPort_offset]
  cases r <;> rfl

/-- Settles O11: the register's write is `State.configWrite`, which tests BUSY first. -/
theorem busyConfigWriteIgnored : Obligations.BusyConfigWriteIgnored := by
  intro s r v rest hr hbusy ha
  rw [step_write (offset_aligned r) ha, portWrite_register, hr]
  exact congrArg Host.Outcome.next (if_pos (State.isBusy_iff.2 hbusy))

/-! ### The commands over the dispatch frame (R103, R105 to R109) -/

theorem exec_nop (s : State) : exec .nop s = .next (s.dispatch id id) := rfl

theorem exec_releaseBuffer (s : State) :
    exec .releaseBuffer s = .next (s.dispatch (State.setIgn true) fun t =>
      if t.status.state = .done then t.setRun .idle else t.raiseError .badState) := rfl

theorem exec_ackError (s : State) : exec .ackError s = .next (s.dispatch State.errorReturn (State.raiseError .badState)) := rfl

/-- The command that runs in a mode (10_state.md R36). -/
def commandOf : Mode → Instr
  | .image => .encodeImage
  | .block => .encodeBlock

theorem exec_encode (m : Mode) (s : State) :
    exec (commandOf m) s = .next (s.dispatch (State.setIgn true) (State.encodeCommand m)) := by cases m <;> rfl

/-- The encode commands are those of the two modes. -/
theorem exists_mode_command {i : Instr} (h : i = .encodeImage ∨ i = .encodeBlock) : ∃ m : Mode, i = (commandOf m) :=
  h.elim (fun h => ⟨.image, h⟩) fun h => ⟨.block, h⟩

/-- A command that ignores BUSY and ERROR alike sets IGN in both (R117, R118). -/
theorem State.dispatch_ignored {g : State → State} {s : State} (h : s.status.state = .busy ∨ s.status.state = .error) :
    s.dispatch (State.setIgn true) g = s.setIgn true := h.elim State.dispatch_busy State.dispatch_error

/-- Settles O18: NOP is the dispatch frame with nothing in it. -/
theorem nopEffect : Obligations.NopEffect := by
  intro s
  rw [exec_nop]
  exact ⟨fun h => congrArg _ (State.dispatch_accepts h), fun h => congrArg _ (State.dispatch_error h),
    fun h => congrArg _ (State.dispatch_busy h)⟩

/-- Settles O19: once accepted, the command tells DONE from IDLE. -/
theorem releaseBufferEffect : Obligations.ReleaseBufferEffect := by
  intro s
  rw [exec_releaseBuffer]
  refine ⟨fun hdone => ?_, fun hidle => ?_, fun h => congrArg _ (State.dispatch_ignored h)⟩
  · rw [State.dispatch_accepts (.inr hdone)]
    exact congrArg _ (if_pos hdone)
  · rw [State.dispatch_accepts (.inl hidle)]
    exact congrArg _ (if_neg (by simp [hidle]))

/-- Settles O20: the dispatch frame with the error return in ERROR and BAD_STATE where a command is accepted. -/
theorem ackErrorEffect : Obligations.AckErrorEffect := by
  intro s
  rw [exec_ackError]
  exact ⟨fun h => congrArg _ (State.dispatch_error h), fun h => congrArg _ (State.dispatch_accepts h),
    fun h => congrArg _ (State.dispatch_busy h)⟩

/-- Settles O24: an accepted encode command tests for DONE first. -/
theorem encodeOutsideIdle : Obligations.EncodeOutsideIdle := by
  intro s i hi
  obtain ⟨m, rfl⟩ := exists_mode_command hi
  rw [exec_encode]
  refine ⟨fun hdone => ?_, fun h => congrArg _ (State.dispatch_ignored h)⟩
  rw [State.dispatch_accepts (.inr hdone)]
  exact congrArg _ (if_pos hdone)

/-! ### CMD writes (R103, R117, R118) -/

theorem cmdWrite_decoded {w : Word} {i : Instr} (h : decodeCmd w = .ok i) (s : State) : cmdWrite w s = exec i s := by
  rw [cmdWrite, h]

/-- Settles O15: offset 0 is CMD, and a CMD write runs what its word decodes to. -/
theorem stepRunsCommandWritten : Obligations.StepRunsCommandWritten := fun _ _ _ _ hdecode ha =>
  (step_cmdWrite ha).trans (cmdWrite_decoded hdecode _)

/-- Settles O21: a CMD write always answers a next state, and while BUSY that is the one with IGN set. -/
theorem busyIgnoresEveryCommand : Obligations.BusyIgnoresEveryCommand := by
  intro s w rest hbusy ha
  obtain ⟨t, ht⟩ := cmdWrite_next w { s with agenda := rest }
  rw [step_cmdWrite ha, ht, (cmdWrite_after ht).of_busy hbusy, State.setIgn]

/-- While ERROR every word but those of NOP and ACK_ERROR is ignored with IGN set (R117). -/
theorem cmdWrite_error_ignored {w : Word} {s : State} (herror : s.status.state = .error) (hack : w ≠ encode .ackError)
    (hnop : w ≠ encode .nop) : cmdWrite w s = .next (s.setIgn true) := by
  have hignored : s.status.state = .busy ∨ s.status.state = .error := .inr herror
  cases hdecode : decodeCmd w with
  | error e => rw [cmdWrite, hdecode, State.illegalCommand_ignored hignored]
  | ok i =>
    rw [cmdWrite_decoded hdecode]
    obtain ⟨hformat, rfl⟩ := decodeCmd_iff.1 hdecode
    cases i with
    | nop => exact absurd rfl hnop
    | ackError => exact absurd rfl hack
    | encodeImage | encodeBlock | releaseBuffer => exact congrArg Host.Outcome.next (State.dispatch_ignored hignored)
    | gather | alphaPack | emitAlpha | quantize | emitColor | advance => exact absurd hformat (by decide)

/-- Settles O22: the words 4 and 0 are ACK_ERROR and NOP, whose effects in ERROR are O20's and O18's. -/
theorem errorStateCommands : Obligations.ErrorStateCommands := by
  intro s w rest herror ha
  obtain ⟨hack, -, -⟩ := ackErrorEffect { s with agenda := rest }
  obtain ⟨-, hnop, -⟩ := nopEffect { s with agenda := rest }
  refine ⟨?_, ?_, fun h4 h0 => (step_cmdWrite ha).trans (cmdWrite_error_ignored herror h4 h0)⟩
  · rintro rfl
    exact (stepRunsCommandWritten s _ .ackError rest rfl ha).trans (hack herror)
  · rintro rfl
    exact (stepRunsCommandWritten s _ .nop rest rfl ha).trans (hnop herror)

/-! ### The required length (R112) -/

theorem Cfg.reqLen_image (c : Cfg) :
    c.reqLen .image =
      4 * ((c.width.toNat + 7) / 8) * ((c.height.toNat + 7) / 8) * (if c.config.getLsbD 0 then 16 else 8) := rfl

theorem Cfg.reqLen_block (c : Cfg) : c.reqLen .block = if c.config.getLsbD 0 then 16 else 8 := rfl

/-- A side of whole tiles: its 8-pixel tiles rounded up are half its 4-pixel blocks. -/
theorem two_mul_tiles {n : Nat} (h : n % 8 = 0) : 2 * ((n + 7) / 8) = n / 4 := by omega

/-- Settles O28: the formulas are the definition's, and the bound is `Cfg.reqLen_le`. -/
theorem requiredLength : Obligations.RequiredLength := by
  rintro c B rfl
  refine ⟨c.reqLen_image, c.reqLen_block, c.reqLen_le .image, fun hw hh => ?_⟩
  rw [c.reqLen_image, ← two_mul_tiles hw, ← two_mul_tiles hh]
  ring

/-! ### The start checks (R110 to R115) -/

theorem Cfg.badDimension_iff {c : Cfg} :
    c.badDimension = true ↔ c.w = 0 ∨ c.h = 0 ∨ c.srcLen.toNat < c.srcBytes := by
  simp [Cfg.badDimension, or_assoc]

theorem Cfg.badRange_iff {c : Cfg} {req : Nat} :
    c.badRange req = true ↔ 2 ^ 64 < c.srcBase.toNat + c.srcBytes ∨ 2 ^ 64 < c.outBase.toNat + req := by
  simp [Cfg.badRange]

theorem Cfg.badSize_iff {c : Cfg} {req : Nat} : c.badSize req = true ↔ c.outCap.toNat < req := by
  simp [Cfg.badSize]

theorem Cfg.badOverlap_iff {c : Cfg} {req : Nat} :
    c.badOverlap req = true ↔
      c.srcBase.toNat < c.outBase.toNat + req ∧ c.outBase.toNat < c.srcBase.toNat + c.srcBytes := by
  simp [Cfg.badOverlap]

theorem Cfg.not_badDimension {c : Cfg} (hw : c.w ≠ 0) (hh : c.h ≠ 0) (hlen : c.srcBytes ≤ c.srcLen.toNat) :
    ¬c.badDimension = true := by
  rw [Cfg.badDimension_iff]
  omega

theorem Cfg.not_badRange {c : Cfg} {req : Nat} (hsrc : c.srcBase.toNat + c.srcBytes ≤ 2 ^ 64)
    (hout : c.outBase.toNat + req ≤ 2 ^ 64) : ¬c.badRange req = true := by
  rw [Cfg.badRange_iff]
  omega

theorem Cfg.not_badSize {c : Cfg} {req : Nat} (hcap : req ≤ c.outCap.toNat) : ¬c.badSize req = true := by
  rw [Cfg.badSize_iff]
  omega

theorem Cfg.not_badOverlap {c : Cfg} {req : Nat}
    (hapart : c.outBase.toNat + req ≤ c.srcBase.toNat ∨ c.srcBase.toNat + c.srcBytes ≤ c.outBase.toNat) :
    ¬c.badOverlap req = true := by
  rw [Cfg.badOverlap_iff]
  omega

theorem Cfg.regionError_range {c : Cfg} {req : Nat} (h : c.badRange req = true) : c.regionError req = .range := if_pos h

theorem Cfg.regionError_outputSize {c : Cfg} {req : Nat} (hrange : ¬c.badRange req = true) (h : c.badSize req = true) :
    c.regionError req = .outputSize := by
  rw [Cfg.regionError, if_neg hrange, if_pos h]

theorem Cfg.regionError_overlap {c : Cfg} {req : Nat} (hrange : ¬c.badRange req = true) (hsize : ¬c.badSize req = true)
    (h : c.badOverlap req = true) : c.regionError req = .overlap := by
  rw [Cfg.regionError, if_neg hrange, if_neg hsize, if_pos h]

theorem Cfg.regionError_none {c : Cfg} {req : Nat} (hrange : ¬c.badRange req = true) (hsize : ¬c.badSize req = true)
    (hoverlap : ¬c.badOverlap req = true) : c.regionError req = .none := by
  rw [Cfg.regionError, if_neg hrange, if_neg hsize, if_neg hoverlap]

/-- From IDLE an encode command is `Start` of its mode, IGN cleared first (R103, R106, R109). -/
theorem exec_encode_idle {s : State} (hidle : s.status.state = .idle) (m : Mode) :
    exec (commandOf m) s = .next ((s.setIgn false).start m) := by
  rw [exec_encode, State.dispatch_accepts (.inl hidle)]
  exact congrArg _ (if_neg (by simp [hidle]))

theorem State.start_dimension {m : Mode} {s : State} (h : s.cfg.badDimension = true) : s.start m = s.raiseError .dimension :=
  if_pos h

theorem State.start_region {m : Mode} {s : State} {e : ErrCode} (hdim : ¬s.cfg.badDimension = true)
    (herror : s.cfg.regionError (s.cfg.reqLen m) = e) (hne : e ≠ .none) :
    s.start m = { s with outLen := BitVec.ofNat 64 (s.cfg.reqLen m) }.raiseError e := by
  subst herror
  rcases State.start_cases m s with ⟨hbad, -⟩ | ⟨-, -, hstart⟩ | ⟨-, hnone, -⟩
  · exact absurd hbad hdim
  · exact hstart
  · exact absurd hnone hne

theorem State.start_init {m : Mode} {s : State} (hdim : ¬s.cfg.badDimension = true)
    (hnone : s.cfg.regionError (s.cfg.reqLen m) = .none) :
    s.start m = { s with outLen := BitVec.ofNat 64 (s.cfg.reqLen m) }.init m := by
  rcases State.start_cases m s with ⟨hbad, -⟩ | ⟨-, herror, -⟩ | ⟨-, -, hstart⟩
  · exact absurd hbad hdim
  · exact absurd hnone herror
  · exact hstart

/-- The command, its mode and its required length written out are those of one mode. -/
theorem exists_mode_reqLen {c : Cfg} {i : Instr} {req : Nat}
    (h : i = .encodeImage ∧
        req = 4 * ((c.width.toNat + 7) / 8) * ((c.height.toNat + 7) / 8) * (if c.config.getLsbD 0 then 16 else 8) ∨
      i = .encodeBlock ∧ req = if c.config.getLsbD 0 then 16 else 8) : ∃ m : Mode, i = (commandOf m) ∧ req = c.reqLen m :=
  h.elim (fun h => ⟨.image, h⟩) fun h => ⟨.block, h⟩

/-- Settles O25: each failing check is the one `Start` reports, since those before it pass. -/
theorem startChecksInOrder : Obligations.StartChecksInOrder := by
  intro s i req hidle hi W H src out fails
  obtain ⟨m, rfl, rfl⟩ := exists_mode_reqLen hi
  have hexec := exec_encode_idle hidle m
  refine ⟨fun hbad => hexec.trans (congrArg _ (State.start_dimension (Cfg.badDimension_iff.2 hbad))), fun hW hH hlen => ?_⟩
  have hregion {e : ErrCode} (herror : s.cfg.regionError (s.cfg.reqLen m) = e) (hne : e ≠ .none) :
      fails e (BitVec.ofNat 64 (s.cfg.reqLen m)) :=
    hexec.trans (congrArg _ (State.start_region (Cfg.not_badDimension hW hH hlen) herror hne))
  refine ⟨fun hbad => hregion (Cfg.regionError_range (Cfg.badRange_iff.2 hbad)) (by decide), fun hsrc hout => ?_⟩
  have hrange := Cfg.not_badRange hsrc hout
  refine ⟨fun hcap => hregion (Cfg.regionError_outputSize hrange (Cfg.badSize_iff.2 hcap)) (by decide), ?_⟩
  intro hcap hlow hhigh
  exact hregion (Cfg.regionError_overlap hrange (Cfg.not_badSize hcap) (Cfg.badOverlap_iff.2 ⟨hlow, hhigh⟩)) (by decide)

/-- Settles O26: no check fails, so `Start` goes on to `Init` of the command's mode. -/
theorem encodeStarts : Obligations.EncodeStarts := by
  intro s i m req hidle hi W H src out hW hH hlen hsrc hout hcap hapart
  have hmode : i = commandOf m ∧ req = s.cfg.reqLen m := by
    rcases hi with ⟨rfl, rfl, rfl⟩ | ⟨rfl, rfl, rfl⟩ <;> exact ⟨rfl, rfl⟩
  obtain ⟨rfl, rfl⟩ := hmode
  have hnone : s.cfg.regionError (s.cfg.reqLen m) = .none :=
    Cfg.regionError_none (Cfg.not_badRange hsrc hout) (Cfg.not_badSize hcap) (Cfg.not_badOverlap hapart)
  exact (exec_encode_idle hidle m).trans (congrArg _ (State.start_init (Cfg.not_badDimension hW hH hlen) hnone))

/-! ### The frame of the commands (R105 to R110, 60_exceptions.md R193, R194) -/

/-- No CMD write touches a configuration register, the datapath, the platform, the pending turns or what the host has seen. -/
theorem State.AfterCommand.kept {s t : State} (h : s.AfterCommand t) :
    t.cfg = s.cfg ∧ t.pix = s.pix ∧ t.acc = s.acc ∧ t.ccode = s.ccode ∧ t.platform = s.platform ∧ t.agenda = s.agenda ∧
      t.seen = s.seen := by
  rcases h with ⟨-, rfl⟩ | ⟨-, rfl | rfl⟩ | ⟨-, rfl | ⟨_, -, rfl⟩⟩ | ⟨-, rfl⟩ | ⟨-, -, _, ⟨-, rfl⟩ | ⟨-, rfl⟩⟩ <;>
    exact ⟨rfl, rfl, rfl, rfl, rfl, rfl, rfl⟩

/-- The record of a command's progress: BLOCKS_DONE, the cursor, PHASE and the race record. -/
def State.SameProgress (s t : State) : Prop :=
  t.blocksDone = s.blocksDone ∧ t.cursor = s.cursor ∧ t.status.phase = s.status.phase ∧ t.race = s.race

/-- Only the start of a command touches its progress (R116). -/
theorem State.AfterCommand.sameProgress {s t : State} (h : s.AfterCommand t)
    (hnostart : t.status.state ≠ .busy ∨ s.status.state = .busy) : s.SameProgress t := by
  rcases h with ⟨-, rfl⟩ | ⟨-, rfl | rfl⟩ | ⟨-, rfl | ⟨_, -, rfl⟩⟩ | ⟨-, rfl⟩ | ⟨hidle, -, _, ⟨-, rfl⟩ | ⟨-, rfl⟩⟩
  iterate 7 exact ⟨rfl, rfl, rfl, rfl⟩
  rcases hnostart with hnostart | hbusy
  · exact absurd rfl hnostart
  · exact absurd (hidle.symm.trans hbusy) (by decide)

/-- An update of STATUS that keeps PHASE. -/
def State.StatusUpdate (s t : State) : Prop := t = { s with status := { t.status with phase := s.status.phase } }

/-- The dispatch frame either sets IGN, or answers as its two functions do, IGN cleared before the second. -/
theorem State.dispatch_cases (f g : State → State) (s : State) :
    s.dispatch f g = s.setIgn true ∨ s.dispatch f g = f s ∨ s.dispatch f g = g (s.setIgn false) := by
  cases h : s.status.state with
  | busy => exact .inl (State.dispatch_busy h)
  | error => exact .inr (.inl (State.dispatch_error h))
  | idle => exact .inr (.inr (State.dispatch_accepts (.inl h)))
  | done => exact .inr (.inr (State.dispatch_accepts (.inr h)))

/-- NOP, RELEASE_BUFFER and ACK_ERROR are updates of STATUS. -/
theorem exec_statusUpdate {i : Instr} {s t : State} (hi : i = .nop ∨ i = .releaseBuffer ∨ i = .ackError)
    (h : exec i s = .next t) : s.StatusUpdate t := by
  rcases hi with rfl | rfl | rfl
  · cases h
    rcases s.dispatch_cases id id with h | h | h <;> rw [h] <;> rfl
  · cases h
    rcases s.dispatch_cases (State.setIgn true) (fun t =>
      if t.status.state = .done then t.setRun .idle else t.raiseError .badState) with h | h | h <;> rw [h]
    · rfl
    · rfl
    · split <;> rfl
  · cases h
    rcases s.dispatch_cases State.errorReturn (State.raiseError .badState) with h | h | h <;> rw [h] <;> rfl

theorem State.StatusUpdate.kept {s t : State} (h : s.StatusUpdate t) : t.outLen = s.outLen ∧ s.SameProgress t := by
  rw [h]
  exact ⟨rfl, rfl, rfl, rfl, rfl⟩

/-- NOP touches IGN alone. -/
theorem exec_nop_next {s t : State} (h : exec .nop s = .next t) :
    t.status.state = s.status.state ∧ t.status.errCode = s.status.errCode := by
  cases h
  rcases s.dispatch_cases id id with h | h | h <;> rw [h] <;> exact ⟨rfl, rfl⟩

/-- Settles O27: every command leaves one of the states of `State.AfterCommand`; the three that start nothing update STATUS
alone, NOP nothing but IGN. -/
theorem commandFrame : Obligations.CommandFrame := by
  intro s t i hformat hexec
  have hafter := exec_command_after hformat hexec
  refine ⟨⟨fun a => by rw [hafter.mem], hafter.kept⟩, fun hi => (exec_statusUpdate hi hexec).kept, ?_,
    fun _ => hafter.sameProgress⟩
  rintro rfl
  exact exec_nop_next hexec

/-! ### No fault under the invariant (R113, 30_encoding.md R85, 42_block_encoder.md R159) -/

/-- A fault the platform causes: a port that fails the block's access, or a quantizer that never answers. -/
def State.PlatformFault (s : State) (f : Fault) : Prop :=
  (f = .busError ∧ (s.platform.srcFails = true ∨ s.platform.outFails = true)) ∨
    (f = .quantizerSilent ∧ s.platform.quantMute = true)

/-- With the source region inside the address space no pixel read is outside it, so GATHER stops for the platform alone. -/
theorem execGather_fault {s : State} {f : Fault} (hspace : s.cfg.srcBase.toNat + s.cfg.srcBytes ≤ 2 ^ 64)
    (h : execGather s = .fault f) : s.PlatformFault f := by
  unfold execGather at h
  split at h
  next hfar =>
    obtain ⟨a, ha, hfar⟩ := List.any_eq_true.1 hfar
    obtain ⟨k, -, hin, rfl⟩ := mem_gatherReads.1 ha
    have := Cfg.pixelAddr_bounds hin
    rw [decide_eq_true_eq] at hfar
    omega
  next =>
    split at h
    next hfails =>
      cases h
      exact .inl ⟨rfl, .inl (Bool.and_eq_true_iff.1 hfails).1⟩
    next => cases h

theorem execQuantize_fault {s : State} {f : Fault} (h : execQuantize s = .fault f) : s.PlatformFault f := by
  unfold execQuantize at h
  split at h
  next hmute => cases h; exact .inr ⟨rfl, hmute⟩
  next => cases h

/-- An emission inside the address space stops for the platform alone, whatever follows it. -/
theorem State.emit_fault {s : State} {a : Nat} {bs : List Byte} {g : State → State} {f : Fault}
    (hspace : a + bs.length ≤ 2 ^ 64) (h : outcome ((s.emit a bs).map g) = .fault f) : s.PlatformFault f := by
  cases hfails : s.platform.outFails with
  | true =>
    rw [State.emit_busError hspace hfails] at h
    cases h
    exact .inl ⟨rfl, .inr hfails⟩
  | false =>
    rw [State.emit_eq hspace hfails] at h
    cases h

/-- The current sub-block's bytes end inside the address space (R113). -/
theorem State.Running.block_in_space {s : State} (h : s.Running) :
    s.cfg.outBase.toNat + (s.blocksDone.toNat * s.cfg.blockBytes + s.cfg.blockBytes) ≤ 2 ^ 64 := by
  obtain ⟨-, -, -, -, hout, -, -⟩ := Cfg.checks_passed h.dimension h.regions
  rw [s.cfg.reqLen_eq] at hout
  have hblock := Nat.mul_le_mul_right s.cfg.blockBytes h.cursor.blocksDone_lt
  rw [Nat.succ_mul] at hblock
  omega

theorem State.Running.emitAlpha_fault {s : State} {f : Fault} (h : s.Running) (hphase : s.status.phase = .emitAlpha)
    (hexec : execEmitAlpha s = .fault f) : s.PlatformFault f := by
  obtain ⟨halpha, -⟩ := (State.phaseOk_alpha (.inr hphase)).1 h.phase
  have hspace := h.block_in_space
  rw [Cfg.blockBytes, if_pos halpha] at hspace
  refine State.emit_fault ?_ hexec
  rw [State.alphaAddr, bytesLE64_length]
  omega

theorem State.Running.emitColor_fault {s : State} {f : Fault} (h : s.Running) (hphase : s.status.phase = .emitColor)
    (hexec : execEmitColor s = .fault f) : s.PlatformFault f := by
  have hwpos := State.wpos_of_color ((State.phaseOk_color (.inr (.inl hphase))).1 h.phase)
  have hspace := h.block_in_space
  refine State.emit_fault ?_ hexec
  rw [State.colorAddr, bytesBE64_length]
  omega

/-- Under the invariant a turn of the sequencer stops for the platform alone. -/
theorem sequencerTurn_fault {s : State} {f : Fault} (h : s.Inv) (hturn : sequencerTurn s = .fault f) : s.PlatformFault f := by
  by_cases hbusy : s.status.state = .busy
  · have hrunning := h.running hbusy
    rw [sequencerTurn_busy hbusy] at hturn
    cases hphase : s.status.phase with
    | none => exact absurd hphase hrunning.phase.phase_ne_none
    | gather =>
      rw [hphase] at hturn
      obtain ⟨-, -, -, hsrc, -⟩ := Cfg.checks_passed hrunning.dimension hrunning.regions
      exact execGather_fault hsrc hturn
    | alphaPack => rw [hphase] at hturn; cases hturn
    | emitAlpha => rw [hphase] at hturn; exact hrunning.emitAlpha_fault hphase hturn
    | quantize => rw [hphase] at hturn; exact execQuantize_fault hturn
    | emitColor => rw [hphase] at hturn; exact hrunning.emitColor_fault hphase hturn
    | advance => rw [hphase] at hturn; cases hturn
  · rw [sequencerTurn_idle hbusy] at hturn
    cases hturn

theorem portWrite_next (offset : Nat) (v : Word) (s : State) : ∃ t, portWrite offset v s = .next t := by
  unfold portWrite
  split
  · exact ⟨_, rfl⟩
  · split
    · exact cmdWrite_next v s
    · exact ⟨_, rfl⟩
    · exact ⟨_, rfl⟩

/-- An access to the port is refused or answers a next state. -/
theorem portAccess_no_fault (a : Access) (s : State) (f : Fault) : portAccess a s ≠ .fault f := by
  unfold portAccess
  split
  · cases a with
    | read width offset => exact nofun
    | write width offset v =>
      obtain ⟨t, ht⟩ := portWrite_next offset v s
      exact fun hfault => nomatch ht.symm.trans hfault
  · exact nofun

theorem hostTurn_no_fault (e : HostEvent) (s : State) (f : Fault) : hostTurn e s ≠ .fault f := by
  cases e with
  | port a => exact portAccess_no_fault a s f
  | wait _ _ | memWrite _ _ | memRead _ | reset | platform _ => exact nofun

/-- Under the invariant a step stops for the platform alone. -/
theorem step_fault {s : State} {f : Fault} (h : s.Inv) (hstep : step s = .fault f) : s.PlatformFault f := by
  have htaken := fun rest => h.of_unspoken s.status.ign s.pix s.acc s.ccode s.platform rest s.seen
  cases ha : s.agenda with
  | nil => exact sequencerTurn_fault h ((step_nil ha).symm.trans hstep)
  | cons turn rest =>
    cases turn with
    | sequencer => exact sequencerTurn_fault (s := { s with agenda := rest }) (htaken rest) ((step_sequencer ha).symm.trans hstep)
    | host e => exact absurd ((step_host ha).symm.trans hstep) (hostTurn_no_fault e _ f)

/-- Settles O57: the platform causes neither of the two faults, and one that answers causes none. -/
theorem invariantRulesOutFaults : Obligations.InvariantRulesOutFaults := by
  intro s h
  refine ⟨fun hstep => ?_, fun hstep => ?_, fun ⟨hsrc, hout, hmute⟩ f hstep => ?_⟩
  · rcases step_fault h hstep with ⟨hf, -⟩ | ⟨hf, -⟩ <;> cases hf
  · rcases step_fault h hstep with ⟨hf, -⟩ | ⟨hf, -⟩ <;> cases hf
  · simpa [State.PlatformFault, hsrc, hout, hmute] using step_fault h hstep

end Sys2Proof.Machine

/-! PROOF. The statements of 41_tiler.md: the corner of the current sub-block (R134, R139), the order of the sub-blocks (R135,
R144) and how ADVANCE walks it (R137), what the bytes of a command depend on (R142), and how many steps a command takes (R141). -/

namespace Sys2Proof.Machine

/-! ### The corner of the current sub-block (R134, R139) -/

/-- `s32` is the signed reading of a word (00_scope.md R8). -/
theorem s32_eq_toInt (v : Word) : s32 v = v.toInt := by
  rw [BitVec.toInt_eq_msb_cond, BitVec.msb_eq_getLsbD_last, s32]
  norm_cast

/-- Settles O29: bit 0 of `q` is the column and bit 1 the row of the sub-block in its tile. -/
theorem cornerOfCursor : Obligations.CornerOfCursor := by
  intro s
  refine ⟨fun hmode => ?_, fun hmode => ?_⟩
  · simp only [State.origin, hmode, tileOrigin, Nat.and_one_is_mod, Nat.shiftRight_one]
    norm_cast
  · simp only [State.origin, hmode, Cfg.blockCorner, s32_eq_toInt]

/-! ### The order of the sub-blocks (R135) -/

/-- Settles O41: `n` is written in base 4 over base `TW`. -/
theorem subBlockIndexInverse : Obligations.SubBlockIndexInverse := by
  intro c tx ty q htx hq n
  have htile : n / 4 = ty * c.tilesWide + tx := by omega
  have hsub : n % 4 = q := by omega
  have hcolumn : n / 4 % c.tilesWide = tx := by rw [htile, Nat.mul_add_mod_of_lt htx]
  have hrow : n / 4 / c.tilesWide = ty := by
    rw [htile, Nat.mul_comm, Nat.mul_add_div (by omega), Nat.div_eq_of_lt htx, Nat.add_zero]
  exact ⟨hsub, hcolumn, hrow, by rw [Cfg.originAt, hsub, hcolumn, hrow]⟩

/-! ### The pixels of the sub-blocks (R144, 42_block_encoder.md R150) -/

/-- The sub-block of its tile that a pixel `x` columns from the left and `r` rows from the top lies in. -/
def subBlockOf (x r : Nat) : Nat := 2 * (r / 4 % 2) + x / 4 % 2

theorem subBlockOf_lt (x r : Nat) : subBlockOf x r < 4 := by
  rw [subBlockOf]
  omega

/-- The one place of an image pixel `r` rows from the top: the tile's column and row, the sub-block of the tile, and the gather
index. -/
theorem Cfg.posOf_tileOrigin_iff (c : Cfg) {tx ty q k posX posY r : Nat} (hq : q < 4) (hk : k < 16)
    (hr : posY + r + 1 = c.h) :
    c.posOf (tileOrigin tx ty q) k = ((posX : Int), (posY : Int)) ↔
      tx = posX / 8 ∧ ty = r / 8 ∧ q = subBlockOf posX r ∧ k = 4 * (r % 4) + posX % 4 := by
  simp only [Cfg.posOf, tileOrigin, Prod.mk.injEq, subBlockOf]
  omega

theorem tileOrigin_subBlockOf (x r : Nat) :
    tileOrigin (x / 8) (r / 8) (subBlockOf x r) = (((4 * (x / 4) : Nat) : Int), ((4 * (r / 4) : Nat) : Int)) := by
  rw [tileOrigin, Prod.mk.injEq, subBlockOf]
  omega

/-- A sub-block of a tile of the grid is one of the command's (R131). -/
theorem Cfg.index_lt_subBlocks {c : Cfg} {tx ty q : Nat} (htx : tx < c.tilesWide) (hty : ty < c.tilesHigh) (hq : q < 4) :
    4 * (ty * c.tilesWide + tx) + q < c.subBlocks .image := by
  have hrows : (ty + 1) * c.tilesWide ≤ c.tilesHigh * c.tilesWide := Nat.mul_le_mul_right _ hty
  rw [Nat.add_one_mul] at hrows
  rw [Cfg.subBlocks, Nat.mul_assoc, Nat.mul_comm c.tilesWide]
  omega

/-- Settles O42: `Cfg.posOf_tileOrigin_iff` gives the pixel's one tile, sub-block and gather index, and the index of a
sub-block is that of its tile and its place in it. -/
theorem everyPixelGatheredOnce : Obligations.EveryPixelGatheredOnce := by
  intro c posX posY hx hy r
  have hr : posY + r + 1 = c.h := by simp only [Cfg.h]; omega
  have htx : posX / 8 < c.tilesWide := by simp only [Cfg.tilesWide, ceilDiv, Cfg.w]; omega
  have hty : r / 8 < c.tilesHigh := by simp only [Cfg.tilesHigh, ceilDiv]; omega
  have hq := subBlockOf_lt posX r
  have hk : 4 * (r % 4) + posX % 4 < 16 := by omega
  obtain ⟨-, -, -, horigin⟩ := subBlockIndexInverse c (posX / 8) (r / 8) (subBlockOf posX r) htx hq
  refine ⟨4 * (r / 8 * c.tilesWide + posX / 8) + subBlockOf posX r, 4 * (r % 4) + posX % 4,
    Cfg.index_lt_subBlocks htx hty hq, hk, ?place, ?corner, rfl, by omega, fun n' k' _ hk' hplace => ?unique⟩
  case place => rw [horigin, c.posOf_tileOrigin_iff hq hk hr]; exact ⟨rfl, rfl, rfl, rfl⟩
  case corner => rw [horigin, tileOrigin_subBlockOf]
  case unique =>
    have hq' : n' % 4 < 4 := Nat.mod_lt _ (by decide)
    obtain ⟨hcolumn, hrow, hsub, hindex⟩ := (c.posOf_tileOrigin_iff hq' hk' hr).1 hplace
    have htile : r / 8 * c.tilesWide + posX / 8 = n' / 4 := by rw [← hcolumn, ← hrow, Nat.div_add_mod']
    exact ⟨by omega, hindex⟩

/-- Settles O43: a gather reads nothing outside the source region. -/
theorem outputDependsOnSourceAlone : Obligations.OutputDependsOnSourceAlone :=
  fun _ _ hcfg hmode hsource j => (State.outputByte_congr hcfg.symm hmode.symm (fun a ha => (hsource a ha).symm) j).symm

/-! ### ADVANCE (R137) -/

theorem State.lastBlock_iff {s : State} :
    s.lastBlock = true ↔ s.cursor.mode = .block ∨ (s.blocksDone + 1).toNat = 4 * s.cfg.tilesWide * s.cfg.tilesHigh := by
  simp [State.lastBlock]

theorem exec_advance_last {s : State} (h : s.lastBlock = true) :
    exec .advance s = .next { s with
      blocksDone := s.blocksDone + 1
      status := { s.status with state := .done, phase := .none } } :=
  congrArg Host.Outcome.next (if_pos h)

theorem exec_advance_more {s : State} (h : ¬s.lastBlock = true) :
    exec .advance s = .next { s with
      blocksDone := s.blocksDone + 1
      cursor := s.cursor.following s.cfg.tilesWide
      status := { s.status with phase := .gather } } :=
  congrArg Host.Outcome.next (if_neg h)

/-- Settles O37: the last sub-block ends the command; after any other the cursor follows `q`, then `tx`, then `ty`. -/
theorem advanceEffect : Obligations.AdvanceEffect := by
  intro s TW TH last goesOn
  have hlast : s.lastBlock = true ↔ last := State.lastBlock_iff
  have hmore : ∀ c : Cursor, ¬last → s.cursor.following s.cfg.tilesWide = { c with wpos := 0 } → goesOn c :=
    fun c hnot hc => (exec_advance_more (mt hlast.1 hnot)).trans (by rw [hc])
  have hrow : s.cursor.q = 3 → ¬s.cursor.q.toNat < 3 := fun hq => by simp [hq]
  exact ⟨fun h => exec_advance_last (hlast.2 h),
    fun hnot hq => hmore _ hnot (Cursor.following_sub hq),
    fun hnot hq htx => hmore _ hnot (Cursor.following_column (hrow hq) htx),
    fun hnot hq htx => hmore _ hnot (Cursor.following_row (hrow hq) htx)⟩

/-! ### The steps of a command (R141) -/

/-- The sequencer steps of a sub-block that lie before a phase (42_block_encoder.md R154): two more before QUANTIZE with alpha. -/
def Cfg.stepsBefore (c : Cfg) : Phase → Nat
  | .none | .gather => 0
  | .alphaPack => 1
  | .emitAlpha => 2
  | .quantize => if c.hasAlpha then 3 else 1
  | .emitColor => if c.hasAlpha then 4 else 2
  | .advance => if c.hasAlpha then 5 else 3

/-- The sequencer steps a running command has taken: those of the finished sub-blocks, and those of the current one. -/
def State.stepsTaken (s : State) : Nat := s.blocksDone.toNat * s.cfg.stepsPerBlock + s.cfg.stepsBefore s.status.phase

/-- The sequencer steps of the whole command (R141). -/
def State.stepsOfCommand (s : State) : Nat := s.cfg.subBlocks s.cursor.mode * s.cfg.stepsPerBlock

theorem Cfg.stepsBefore_afterGather (c : Cfg) : c.stepsBefore c.afterGather = 1 := by
  cases halpha : c.hasAlpha <;> simp [Cfg.stepsBefore, Cfg.afterGather, halpha]

theorem Cfg.stepsBefore_emitColor (c : Cfg) : c.stepsBefore .emitColor = c.stepsBefore .quantize + 1 := by
  cases halpha : c.hasAlpha <;> simp [Cfg.stepsBefore, halpha]

theorem Cfg.stepsBefore_advance (c : Cfg) : c.stepsBefore .advance = c.stepsBefore .emitColor + 1 := by
  cases halpha : c.hasAlpha <;> simp [Cfg.stepsBefore, halpha]

/-- ADVANCE is the last step of its sub-block. -/
theorem Cfg.stepsPerBlock_eq (c : Cfg) : c.stepsPerBlock = c.stepsBefore .advance + 1 := by
  cases halpha : c.hasAlpha <;> simp [Cfg.stepsBefore, Cfg.stepsPerBlock, halpha]

theorem Cfg.stepsBefore_le (c : Cfg) (p : Phase) : c.stepsBefore p ≤ c.stepsBefore .advance := by
  cases halpha : c.hasAlpha <;> cases p <;> simp [Cfg.stepsBefore, halpha]

/-- A micro-operation before ADVANCE goes on to the next phase of the same sub-block. -/
theorem State.stepsTaken_phaseStep {s t : State} (hdone : t.blocksDone = s.blocksDone) (hcfg : t.cfg = s.cfg)
    (hphase : s.cfg.stepsBefore t.status.phase = s.cfg.stepsBefore s.status.phase + 1) : t.stepsTaken = s.stepsTaken + 1 := by
  rw [State.stepsTaken, hdone, hcfg, hphase, State.stepsTaken, Nat.add_assoc]

theorem State.stepsTaken_advance {s : State} (hphase : s.status.phase = .advance) :
    s.stepsTaken + 1 = (s.blocksDone.toNat + 1) * s.cfg.stepsPerBlock := by
  rw [State.stepsTaken, hphase, Nat.add_one_mul, Nat.add_assoc, ← Cfg.stepsPerBlock_eq]

/-- A command that still runs has steps left. -/
theorem State.Running.stepsTaken_lt {s : State} (h : s.Running) : s.stepsTaken < s.stepsOfCommand :=
  calc s.stepsTaken
      < s.blocksDone.toNat * s.cfg.stepsPerBlock + s.cfg.stepsPerBlock :=
        Nat.add_lt_add_left (s.cfg.stepsPerBlock_eq ▸ Nat.lt_succ_of_le (s.cfg.stepsBefore_le _)) _
    _ = (s.blocksDone.toNat + 1) * s.cfg.stepsPerBlock := (Nat.add_one_mul ..).symm
    _ ≤ s.stepsOfCommand := Nat.mul_le_mul_right _ h.cursor.blocksDone_lt

/-- A turn of the sequencer while BUSY is one more step of the command, or ends it at the ADVANCE of its last sub-block. -/
theorem sequencerTurn_stepsTaken {s t : State} (h : s.Running) (hbusy : s.status.state = .busy)
    (hturn : sequencerTurn s = .next t) :
    (t.status.state = .busy ∧ t.stepsTaken = s.stepsTaken + 1) ∨
      (s.status.phase = .advance ∧ s.lastBlock = true ∧
        t = { s with blocksDone := s.blocksDone + 1, status := { s.status with state := .done, phase := .none } }) := by
  rcases sequencerTurn_cases hturn with ⟨hidle, -⟩ | ⟨-, ⟨hphase, hexec⟩ | ⟨hphase, hexec⟩ | ⟨hphase, hexec⟩ |
    ⟨hphase, hexec⟩ | ⟨hphase, hexec⟩ | ⟨hphase, hexec⟩⟩
  · exact absurd hbusy hidle
  · rw [execGather_next hexec]
    exact .inl ⟨hbusy, State.stepsTaken_phaseStep rfl rfl (by rw [hphase]; exact s.cfg.stepsBefore_afterGather)⟩
  · cases hexec
    exact .inl ⟨hbusy, State.stepsTaken_phaseStep rfl rfl (by rw [hphase]; rfl)⟩
  · obtain ⟨halpha, -⟩ := (State.phaseOk_alpha (.inr hphase)).1 h.phase
    obtain ⟨-, rfl⟩ := execEmitAlpha_next hexec
    exact .inl ⟨hbusy, State.stepsTaken_phaseStep rfl rfl (by rw [hphase]; exact if_pos halpha)⟩
  · rw [execQuantize_next hexec]
    exact .inl ⟨hbusy, State.stepsTaken_phaseStep rfl rfl (by rw [hphase]; exact s.cfg.stepsBefore_emitColor)⟩
  · obtain ⟨-, rfl⟩ := execEmitColor_next hexec
    exact .inl ⟨hbusy, State.stepsTaken_phaseStep rfl rfl (by rw [hphase]; exact s.cfg.stepsBefore_advance)⟩
  · rcases execAdvance_cases hexec with ⟨hlast, rfl⟩ | ⟨-, rfl⟩
    · exact .inr ⟨hphase, hlast, rfl⟩
    · refine .inl ⟨hbusy, ?_⟩
      rw [State.stepsTaken_advance hphase, State.stepsTaken, h.cursor.toNat_blocksDone_succ]
      rfl

/-! ### A turn with a platform that answers -/

theorem outcome_ne_refused (x : Except Fault State) (r : Refusal) : outcome x ≠ .refused r := by
  cases x <;> exact nofun

/-- No micro-operation is refused. -/
theorem sequencerTurn_ne_refused {s : State} (r : Refusal) : sequencerTurn s ≠ .refused r := by
  by_cases hbusy : s.status.state = .busy
  · rw [sequencerTurn_busy hbusy]
    cases s.status.phase with
    | none | alphaPack | advance => exact nofun
    | gather =>
      simp only [execGather]
      split
      · exact nofun
      · split <;> exact nofun
    | quantize =>
      simp only [execQuantize]
      split <;> exact nofun
    | emitAlpha | emitColor => exact outcome_ne_refused _ r
  · rw [sequencerTurn_idle hbusy]
    exact nofun

/-- With a platform that answers, the sequencer's turn has a next state (R79, 70_reset_and_hazards.md R220). -/
theorem sequencerTurn_next {s : State} (h : s.Inv) (hanswers : s.Answering) : ∃ t, sequencerTurn s = .next t := by
  obtain ⟨hsrc, hout, hmute⟩ := hanswers
  cases hturn : sequencerTurn s with
  | next t => exact ⟨t, rfl⟩
  | fault f => simpa [State.PlatformFault, hsrc, hout, hmute] using sequencerTurn_fault h hturn
  | refused r => exact absurd hturn (sequencerTurn_ne_refused r)

/-- The sequencer's turn touches neither the platform nor the pending turns. -/
theorem sequencerTurn_platform_agenda {s t : State} (hturn : sequencerTurn s = .next t) :
    t.platform = s.platform ∧ t.agenda = s.agenda := by
  rcases sequencerTurn_cases hturn with
    ⟨-, rfl⟩ | ⟨-, ⟨-, hexec⟩ | ⟨-, hexec⟩ | ⟨-, hexec⟩ | ⟨-, hexec⟩ | ⟨-, hexec⟩ | ⟨-, hexec⟩⟩
  · exact ⟨rfl, rfl⟩
  · rw [execGather_next hexec]; exact ⟨rfl, rfl⟩
  · cases hexec; exact ⟨rfl, rfl⟩
  · rw [(execEmitAlpha_next hexec).2]; exact ⟨rfl, rfl⟩
  · rw [execQuantize_next hexec]; exact ⟨rfl, rfl⟩
  · rw [(execEmitColor_next hexec).2]; exact ⟨rfl, rfl⟩
  · rcases execAdvance_cases hexec with ⟨-, rfl⟩ | ⟨-, rfl⟩ <;> exact ⟨rfl, rfl⟩

/-! ### From the start of a command to its end (R141, R142, 70_reset_and_hazards.md R224) -/

/-- `s` is a state of the command that `u` runs, the host leaving it alone, no turn pending and the platform answering. -/
structure State.UnderWay (u s : State) : Prop where
  busy      : s.status.state = .busy
  inv       : s.Inv
  data      : s.DataOk
  untouched : s.Untouched
  answering : s.Answering
  agenda    : s.agenda = []
  cfg       : s.cfg = u.cfg
  outLen    : s.outLen = u.outLen
  mode      : s.cursor.mode = u.cursor.mode
  outside   : ∀ a, u.inOutput a = false → s.mem.read a = u.mem.read a

/-- `t` is a state in which the command that `u` runs has ended, its output that of the source as it stands in `u`. -/
structure State.Finishes (u t : State) : Prop where
  done       : t.status.state = .done
  cfg        : t.cfg = u.cfg
  outLen     : t.outLen = u.outLen
  blocksDone : t.blocksDone.toNat = u.cfg.subBlocks u.cursor.mode
  output     : ∀ j, j < u.outLen.toNat → t.mem.read (u.cfg.outBase.toNat + j) = u.outputByte j
  outside    : ∀ a, u.inOutput a = false → t.mem.read a = u.mem.read a

theorem State.inOutput_congr {s t : State} (hcfg : t.cfg = s.cfg) (hlen : t.outLen = s.outLen) (a : Nat) :
    t.inOutput a = s.inOutput a := by
  simp only [State.inOutput, hcfg, hlen]

section
variable {u s t : State}

theorem State.UnderWay.running (h : u.UnderWay s) : s.Running := h.inv.running h.busy

theorem State.UnderWay.inOutput_eq (h : u.UnderWay s) (a : Nat) : s.inOutput a = u.inOutput a :=
  State.inOutput_congr h.cfg h.outLen a

theorem State.UnderWay.stepsOfCommand_eq (h : u.UnderWay s) : s.stepsOfCommand = u.stepsOfCommand := by
  rw [State.stepsOfCommand, h.cfg, h.mode, State.stepsOfCommand]

/-- The command has kept its source region, so what it writes is still what the start said (R142). -/
theorem State.UnderWay.outputByte_eq (h : u.UnderWay s) (j : Nat) : s.outputByte j = u.outputByte j :=
  State.outputByte_congr h.cfg h.mode
    (fun a ha => h.outside a (h.inOutput_eq a ▸ h.running.not_inOutput (h.cfg ▸ ha))) j

/-- A turn of the sequencer that leaves the block BUSY goes on with the command. -/
theorem State.UnderWay.next (h : u.UnderWay s) (hturn : sequencerTurn s = .next t) (hbusy : t.status.state = .busy) :
    u.UnderWay t := by
  have hframe := sequencerTurn_frame h.inv hturn
  have ht := h.inv.sequencerTurn hturn
  obtain ⟨hplatform, hagenda⟩ := sequencerTurn_platform_agenda hturn
  have huntouched : t.Untouched := by
    rw [State.Untouched, hframe.race]
    exact h.untouched
  exact {
    busy := hbusy
    inv := ht
    data := State.Right.sequencerTurn (fun _ _ => h.data) h.inv ht hturn hbusy huntouched
    untouched := huntouched
    answering := by rw [State.Answering, hplatform]; exact h.answering
    agenda := hagenda.trans h.agenda
    cfg := hframe.cfg.trans h.cfg
    outLen := hframe.outLen.trans h.outLen
    mode := hframe.mode.trans h.mode
    outside := fun a ha => (hframe.mem_outside ht ((h.inOutput_eq a).trans ha)).trans (h.outside a ha) }

theorem State.Running.blocksDone_of_lastBlock (h : s.Running) (hlast : s.lastBlock = true) :
    s.blocksDone.toNat + 1 = s.cfg.subBlocks s.cursor.mode := by
  have hlen := h.outLen_of_lastBlock hlast
  rw [h.length, Cfg.reqLen_eq, ← Nat.add_one_mul] at hlen
  exact (Nat.mul_right_cancel s.cfg.blockBytes_pos hlen).symm

/-- The ADVANCE of the last sub-block ends the command with every output byte written. -/
theorem State.UnderWay.finishes (h : u.UnderWay s) (hphase : s.status.phase = .advance) (hlast : s.lastBlock = true) :
    u.Finishes { s with blocksDone := s.blocksDone + 1, status := { s.status with state := .done, phase := .none } } where
  done := rfl
  cfg := h.cfg
  outLen := h.outLen
  blocksDone := by
    rw [h.running.cursor.toNat_blocksDone_succ, h.running.blocksDone_of_lastBlock hlast, h.cfg, h.mode]
  output := fun j hj => by
    rw [← h.outLen, h.running.outLen_of_lastBlock hlast, ← State.emitted_advance hphase] at hj
    rw [← h.outputByte_eq, ← h.data.written j hj, h.cfg]
  outside := h.outside

/-- From any state of a command the rest of its steps run to its end, BUSY until the last. -/
theorem State.UnderWay.run (h : u.UnderWay s) {n : Nat} (hn : s.stepsTaken + n = u.stepsOfCommand) :
    (∀ k, k < n → ∃ v, Host.Core.run core k s = .next v ∧ v.status.state = .busy) ∧
      ∃ t, Host.Core.run core n s = .next t ∧ u.Finishes t := by
  induction n generalizing s with
  | zero =>
    have hlt := h.running.stepsTaken_lt
    rw [h.stepsOfCommand_eq] at hlt
    omega
  | succ n ih =>
    obtain ⟨t, hturn⟩ := sequencerTurn_next h.inv h.answering
    have hstep : step s = .next t := (step_nil h.agenda).trans hturn
    have hfirst : (∀ k, k < n → ∃ v, Host.Core.run core k t = .next v ∧ v.status.state = .busy) →
        ∀ k, k < n + 1 → ∃ v, Host.Core.run core k s = .next v ∧ v.status.state = .busy := by
      rintro hrest (_ | k) hk
      · exact ⟨s, rfl, h.busy⟩
      · rw [run_succ hstep]
        exact hrest k (by omega)
    rw [run_succ hstep]
    rcases sequencerTurn_stepsTaken h.running h.busy hturn with ⟨hbusy, htaken⟩ | ⟨hphase, hlast, rfl⟩
    · obtain ⟨hrest, hend⟩ := ih (h.next hturn hbusy) (by omega)
      exact ⟨hfirst hrest, hend⟩
    · have hlastStep : s.stepsTaken + 1 = u.stepsOfCommand := by
        rw [State.stepsTaken_advance hphase, h.running.blocksDone_of_lastBlock hlast, ← h.stepsOfCommand_eq,
          State.stepsOfCommand]
      obtain rfl : n = 0 := by omega
      exact ⟨hfirst nofun, _, rfl, h.finishes hphase hlast⟩

end

/-- A CMD write that makes the block BUSY starts a command: nothing of it is done, and the registers, the memory and the
platform are as before. -/
theorem State.UnderWay.of_cmdWrite {s u : State} {w : Word} (h : s.Inv) (hanswers : s.Answering)
    (hidle : s.status.state ≠ .busy) (hagenda : s.agenda = [.host (.port (.write 32 0 w))]) (hstep : step s = .next u)
    (hbusy : u.status.state = .busy) :
    u.UnderWay u ∧ u.stepsTaken = 0 ∧ u.cfg = s.cfg ∧ u.mem = s.mem := by
  have hinv := stepKeepsInvariant s u h hstep
  have hafter := cmdWrite_after ((step_cmdWrite hagenda).symm.trans hstep)
  obtain ⟨hcfg, -, -, -, hplatform, hrest, -⟩ := hafter.kept
  obtain ⟨m, x, rfl⟩ := hostTurn_starts ((step_host hagenda).symm.trans hstep) hidle hbusy
  refine ⟨?_, by simp [State.stepsTaken, Cfg.stepsBefore], hcfg, hafter.mem⟩
  exact {
    busy := hbusy
    inv := hinv
    data := State.init_dataOk m x
    untouched := ⟨rfl, rfl⟩
    answering := by rw [State.Answering, hplatform]; exact hanswers
    agenda := hrest
    cfg := rfl
    outLen := rfl
    mode := rfl
    outside := fun _ _ => rfl }

/-- Settles O60: the start is a state of the command with no step taken, and `State.UnderWay.run` runs it to its end. -/
theorem encodeRunsToCompletion : Obligations.EncodeRunsToCompletion := by
  intro s u w h hanswers hidle hagenda hstep hbusy steps
  obtain ⟨hunderWay, htaken, hcfg, hmem⟩ := State.UnderWay.of_cmdWrite h hanswers hidle hagenda hstep hbusy
  have hsteps : u.stepsTaken + steps = u.stepsOfCommand := by rw [htaken, Nat.zero_add]; rfl
  obtain ⟨hrest, t, hrun, hend⟩ := hunderWay.run hsteps
  simp only [Nat.add_comm 1, run_succ hstep]
  refine ⟨hrest, t, hrun, hend.done, hend.cfg.trans hcfg, ?_, ?_, ?_, ?_⟩
  · rw [hend.outLen, hunderWay.running.length, hcfg]
  · rw [hend.blocksDone, hcfg]
  · rw [hend.outLen, ← hcfg]
    exact hend.output
  · intro a ha
    rw [hend.outside a ((State.inOutput_congr hend.cfg hend.outLen a).symm.trans ha), hmem]

end Sys2Proof.Machine

/-! PROOF. The statements of 42_block_encoder.md: what GATHER (R150 to R154), QUANTIZE (R155, R156) and EMIT_COLOR (R157) do,
and what the micro-operations that store nothing leave unchanged (R153, R156, 41_tiler.md R137, 43_alpha_packer.md R174). -/

namespace Sys2Proof.Machine

/-! ### GATHER (R150 to R154) -/

/-- With the source region inside the address space, GATHER reads no pixel outside it. -/
theorem gatherReads_in_space {c : Cfg} (hspace : c.srcBase.toNat + c.srcBytes ≤ 2 ^ 64) (o : Int × Int) :
    ((gatherReads c o).any fun a => decide (2 ^ 64 < a + 4)) = false := by
  rw [List.any_eq_false]
  intro a ha
  obtain ⟨k, -, hin, rfl⟩ := mem_gatherReads.1 ha
  have hbounds := Cfg.pixelAddr_bounds hin
  rw [decide_eq_true_eq]
  omega

theorem exec_gather {s : State} (hspace : s.cfg.srcBase.toNat + s.cfg.srcBytes ≤ 2 ^ 64)
    (hanswers : s.platform.srcFails = false) :
    exec .gather s = .next { s with
      pix := s.gathered
      status := { s.status with phase := s.cfg.afterGather } } := by
  rw [exec, execGather, gatherReads_in_space hspace, hanswers]
  rfl

/-- The gather index `4*y + x` is column `x` and row `y` of the sub-block (R150). -/
theorem Cfg.posOf_column_row (c : Cfg) (o : Int × Int) {x : Nat} (hx : x < 4) (y : Nat) :
    c.posOf o (4 * y + x) = (o.1 + x, (c.h : Int) - 1 - (o.2 + y)) := by
  have hcolumn : (4 * y + x) % 4 = x := by omega
  have hrow : (4 * y + x) / 4 = y := by omega
  rw [Cfg.posOf, hcolumn, hrow]

/-- An in-bounds entry is the pixel in memory, or a draw once the host wrote the source region; any other is 0 either way
(R151, R152, 20_memory.md R76). -/
theorem State.gathered_getElem (s : State) {k : Nat} (hk : k < 16) :
    s.gathered[k] =
      if s.cfg.inImage (s.cfg.posOf s.origin k) then
        if s.race.srcTainted then Config.drawPixel (s.race.srcDraws + 16 * s.blocksDone.toNat + k)
        else s.mem.readPixel (s.cfg.pixelAddr (s.cfg.posOf s.origin k))
      else 0 := by
  cases htaint : s.race.srcTainted with
  | true => simp [State.gathered, State.pixelsAt, htaint, gatherDrawn_getElem]
  | false => simp [State.gathered, State.pixelsAt, htaint, gatherAt_getElem, fetch]

/-- Settles O30: entry `4*y + x` is the one of column `x` and row `y`, and the statement's bounds are those of
`Cfg.inImage`. -/
theorem gatherFillsBuffer : Obligations.GatherFillsBuffer := by
  intro s hspace hanswers
  refine ⟨_, exec_gather hspace hanswers, rfl, ?_⟩
  intro x y hx hy posX posY addr
  have hk : 4 * y + x < 16 := by omega
  have hpos : s.cfg.posOf s.origin (4 * y + x) = (posX, posY) := s.cfg.posOf_column_row s.origin hx y
  have hin : s.cfg.inImage (s.cfg.posOf s.origin (4 * y + x)) = true ↔
      0 ≤ posX ∧ posX < s.cfg.width.toNat ∧ 0 ≤ posY ∧ posY < s.cfg.height.toNat := by
    rw [hpos]
    exact s.cfg.inImage_iff (posX, posY)
  refine ⟨fun hinside hkept => ?_, fun houtside => ?_⟩
  · calc s.gathered[4 * y + x]
      _ = s.mem.readPixel addr := by
        rw [s.gathered_getElem hk, if_pos (hin.2 hinside), hkept, hpos]
        rfl
      _ = _ := s.mem.readPixel_eq addr
  · exact (s.gathered_getElem hk).trans (if_neg (mt hin.1 houtside))

/-! ### QUANTIZE (R155, R156) -/

theorem exec_quantize {s : State} (hanswers : s.platform.quantMute = false) :
    exec .quantize s = .next (s.quantizeWith Config.Q) := by
  rw [exec, execQuantize, hanswers]
  rfl

/-- Settles O34: `State.quantizeWith` puts the answer to `rgbs` and the quality in ccode. -/
theorem quantizeAsksQuantizer : Obligations.QuantizeAsksQuantizer := fun _ hanswers => exec_quantize hanswers

/-- The triple of an entry lies in its bits `[23:0]`. -/
theorem rgbOf_eq_of_low (p : Word) :
    rgbOf p =
      { r := (p.extractLsb' 0 24).extractLsb' 0 8
        g := (p.extractLsb' 0 24).extractLsb' 8 8
        b := (p.extractLsb' 0 24).extractLsb' 16 8 } := by
  simp (disch := decide) only [rgbOf, BitVec.extractLsb'_extractLsb'_of_le]

/-- Buffers that differ in the alpha bytes alone make one request. -/
theorem rgbs_congr {pix pix' : Vector Word 16}
    (hlow : ∀ (k : Nat) (hk : k < 16), (pix[k]).extractLsb' 0 24 = (pix'[k]).extractLsb' 0 24) : rgbs pix = rgbs pix' := by
  have hrgb : ∀ k : Fin 16, rgbOf pix[k] = rgbOf pix'[k] := fun k => by
    rw [rgbOf_eq_of_low, rgbOf_eq_of_low, Fin.getElem_fin, Fin.getElem_fin, hlow k k.isLt]
  simp only [rgbs, hrgb]

/-- Settles O35: both states ask the quantizer for the same triples at the same quality. -/
theorem alphaNotSentToQuantizer : Obligations.AlphaNotSentToQuantizer := by
  intro s s' t t' hcfg hlow hexec hexec'
  rw [execQuantize_next hexec, execQuantize_next hexec', State.quantizeWith, State.quantizeWith, rgbs_congr hlow, hcfg]

/-! ### EMIT_COLOR (R157) -/

theorem exec_emitColor {s : State} (hspace : s.colorAddr + 8 ≤ 2 ^ 64) (hanswers : s.platform.outFails = false) :
    exec .emitColor s = .next ((s.writeCode s.colorAddr (bytesBE64 s.ccode)).setPhase .advance) := by
  rw [exec, execEmitColor, State.emit_eq (by rwa [bytesBE64_length]) hanswers]
  rfl

/-- Byte `i` in wire order (R157). -/
theorem bytesBE64_getD (v : Code) {i : Nat} (hi : i < 8) : (bytesBE64 v).getD i 0 = v.extractLsb' (56 - 8 * i) 8 := by
  have hstart : 8 * (7 - i) = 56 - 8 * i := by omega
  rw [bytesBE64_eq_map, ← hstart]
  simp [hi, byteOf]

/-- What the memory of an emission reads as at byte `i` of the code: that byte, or the standing one where the host also wrote
(20_memory.md R76). -/
theorem State.writeCode_inside (s : State) {a i : Nat} {bs : List Byte} (hm : s.mem.wf) (ha : a + bs.length ≤ 2 ^ 64)
    (hi : i < bs.length) :
    (s.writeCode a bs).mem.read (a + i) = bs.getD i 0 ∨
      (a + i ∈ s.race.hostOut ∧ (s.writeCode a bs).mem.read (a + i) = s.mem.read (a + i)) := by
  have hread : (s.writeCode a bs).mem.read (a + i) = (s.settled s.race.draws a bs).getD i 0 := by
    rw [State.writeCode_mem, Memory.read_writeBytes _ _ _ hm (by rwa [State.settled_length]), State.settled_length,
      if_pos (by omega), Nat.add_sub_cancel_left]
  rw [hread]
  exact s.settled_getD s.race.draws a bs i hi

/-- Settles O36: the eight bytes are those of `bytesBE64 ccode`, settled with the host's, and no other byte is written. -/
theorem emitColorWritesCode : Obligations.EmitColorWritesCode := by
  intro s hwf hspace hanswers
  refine ⟨_, exec_emitColor hspace hanswers, rfl, fun i hi => ?_, fun a ha => ?_, rfl⟩
  · have hread := s.writeCode_inside (bs := bytesBE64 s.ccode) hwf hspace hi
    rwa [bytesBE64_getD _ hi] at hread
  · exact s.writeCode_outside s.colorAddr a (bytesBE64 s.ccode) hwf hspace ha

/-! ### The micro-operations that store nothing -/

/-- Settles O38: the next state of each of the four is `s` with the named elements and STATUS replaced. -/
theorem storelessMicroOpFrame : Obligations.StorelessMicroOpFrame := by
  rintro s t i (rfl | rfl | rfl | rfl) hexec
  · rw [execGather_next hexec]
    simp
  · cases hexec
    simp
  · rw [execQuantize_next hexec]
    simp [State.quantizeWith]
  · rcases execAdvance_cases hexec with ⟨-, rfl⟩ | ⟨-, rfl⟩ <;> simp

end Sys2Proof.Machine

/-! PROOF. The statements of 43_alpha_packer.md: the nibbles ALPHA_PACK leaves in acc (R172 to R174) and the image pixels they
come from (R178), the bytes EMIT_ALPHA writes (R175), and what the two micro-operations that store leave unchanged (R175,
42_block_encoder.md R157). -/

namespace Sys2Proof.Machine

/-! ### ALPHA_PACK (R172 to R174, R178) -/

theorem exec_alphaPack (s : State) :
    exec .alphaPack s = .next { s with acc := alphaCode s.pix, status := { s.status with phase := .emitAlpha } } := rfl

/-- Settles O31: acc becomes `alphaCode pix`, whose nibble `n` is that of entry `alphaIndex n`. -/
theorem alphaPackNibbles : Obligations.AlphaPackNibbles := fun s =>
  ⟨alphaCode s.pix, exec_alphaPack s, fun n hn => alphaCode_nibble s.pix ⟨n, hn⟩⟩

/-- The alpha of a pixel read from memory is the high half of its byte 3 (R172, 20_memory.md R63). -/
theorem Memory.readPixel_alpha (m : Memory) (a : Nat) :
    (m.readPixel a).extractLsb' 28 4 = (m.read (a + 3)).extractLsb' 4 4 := by
  rw [Memory.readPixel_eq]
  simp (disch := decide) only [BitVec.extractLsb'_append_eq_of_le, Nat.reduceSub]

/-- The alpha of a fetch is that of the pixel in bounds, and 0 elsewhere (R172, 42_block_encoder.md R152). -/
theorem fetch_alpha (c : Cfg) (m : Memory) (p : Int × Int) :
    (fetch c m p).extractLsb' 28 4 = if c.inImage p then (m.read (c.pixelAddr p + 3)).extractLsb' 4 4 else 0 := by
  cases hin : c.inImage p with
  | true => simp [fetch, hin, Memory.readPixel_alpha]
  | false => simp [fetch, hin]

/-- Settles O32: nibble `n` is that of entry `4*(n & 3) + (n >> 2)`, the fetch in column `n >> 2` and row `n & 3`. -/
theorem alphaNibbleInImageSpace : Obligations.AlphaNibbleInImageSpace := by
  intro c m bx by' n hn posX posY
  have hpos : c.posOf (bx, by') (4 * (n % 4) + n / 4) = (posX, posY) :=
    c.posOf_column_row (bx, by') (by omega) (n % 4)
  have hin : c.inImage (posX, posY) = true ↔
      0 ≤ posX ∧ posX < c.width.toNat ∧ 0 ≤ posY ∧ posY < c.height.toNat := c.inImage_iff (posX, posY)
  calc (alphaCode (gatherAt c m (bx, by'))).extractLsb' (4 * n) 4
    _ = ((gatherAt c m (bx, by'))[4 * (n % 4) + n / 4]).extractLsb' 28 4 := alphaCode_nibble _ ⟨n, hn⟩
    _ = (fetch c m (posX, posY)).extractLsb' 28 4 := by rw [gatherAt_getElem, hpos]
    _ = _ := (fetch_alpha c m (posX, posY)).trans (if_congr hin rfl rfl)

/-! ### EMIT_ALPHA (R175) -/

theorem exec_emitAlpha {s : State} (hspace : s.alphaAddr + 8 ≤ 2 ^ 64) (hanswers : s.platform.outFails = false) :
    exec .emitAlpha s = .next { s.writeCode s.alphaAddr (bytesLE64 s.acc) with
      cursor := { s.cursor with wpos := 8 }
      status := { s.status with phase := .quantize } } := by
  rw [exec, execEmitAlpha, State.emit_eq (by rwa [bytesLE64_length]) hanswers]
  rfl

/-- Byte `i` of the alpha code's order (R175). -/
theorem bytesLE64_getD (v : Code) {i : Nat} (hi : i < 8) : (bytesLE64 v).getD i 0 = v.extractLsb' (8 * i) 8 := by
  rw [bytesLE64_eq_map]
  simp [hi, byteOf]

/-- Settles O33: the eight bytes are those of `bytesLE64 acc`, settled with the host's, and no other byte is written. -/
theorem emitAlphaWritesCode : Obligations.EmitAlphaWritesCode := by
  intro s hwf hspace hanswers
  refine ⟨_, exec_emitAlpha hspace hanswers, rfl, fun i hi => ?_, fun a ha => ?_, rfl⟩
  · have hread := s.writeCode_inside (bs := bytesLE64 s.acc) hwf hspace hi
    rwa [bytesLE64_getD _ hi] at hread
  · exact s.writeCode_outside s.alphaAddr a (bytesLE64 s.acc) hwf hspace ha

/-! ### The micro-operations that store -/

/-- Everything EMIT_ALPHA and EMIT_COLOR can do: eight bytes written at the address of each, then wpos (EMIT_ALPHA alone) and
PHASE. -/
theorem exec_emit_next {s t : State} {i : Instr} {addr : Nat}
    (hi : i = .emitAlpha ∧ addr = s.alphaAddr ∨ i = .emitColor ∧ addr = s.colorAddr) (hexec : exec i s = .next t) :
    ∃ (bs : List Byte) (wpos : BitVec 4) (p : Phase),
      bs.length = 8 ∧ addr + 8 ≤ 2 ^ 64 ∧ (i = .emitColor → wpos = s.cursor.wpos) ∧
      t = { s.writeCode addr bs with
        cursor := { s.cursor with wpos := wpos }
        status := { s.status with phase := p } } := by
  rcases hi with ⟨rfl, rfl⟩ | ⟨rfl, rfl⟩
  · obtain ⟨hspace, ht⟩ := execEmitAlpha_next hexec
    exact ⟨bytesLE64 s.acc, 8, .quantize, rfl, hspace, nofun, ht⟩
  · obtain ⟨hspace, ht⟩ := execEmitColor_next hexec
    exact ⟨bytesBE64 s.ccode, s.cursor.wpos, .advance, rfl, hspace, fun _ => rfl, ht⟩

/-- Settles O39: the bytes outside the write are those `State.writeCode` keeps, and it changes only the memory and the record
of the race. -/
theorem storingMicroOpFrame : Obligations.StoringMicroOpFrame := by
  intro s t i addr hwf hi hexec
  obtain ⟨bs, wpos, p, hlen, hspace, hwpos, rfl⟩ := exec_emit_next hi hexec
  refine ⟨fun a ha => ?_, rfl, rfl, rfl, rfl, rfl, rfl, rfl, rfl, fun hcolor => ?_, rfl, rfl, rfl, rfl⟩
  · rw [← hlen] at hspace ha
    exact s.writeCode_outside addr a bs hwf hspace ha
  · rw [hwpos hcolor]

end Sys2Proof.Machine

/-! PROOF. The statements of 60_exceptions.md: what raises an error and what that leaves unchanged (R190, R194), and the
sequencer at rest outside BUSY (R204). -/

namespace Sys2Proof.Machine

/-! ### The sequencer at rest (R204) -/

/-- Settles O17: either way the turn is the sequencer's, and it takes no step. -/
theorem notBusyTakesNoStep : Obligations.NotBusyTakesNoStep := fun _ _ hs =>
  ⟨fun ha => (step_nil ha).trans (sequencerTurn_idle hs), fun ha => (step_sequencer ha).trans (sequencerTurn_idle hs)⟩

/-! ### What raises an error (R190, R194) -/

/-- Of the listed transitions only those from IDLE and DONE enter ERROR (10_state.md R23). -/
theorem Transition.into_error {r : RunState} (h : Transition r .error) (hr : r ≠ .error) : r = .idle ∨ r = .done := by
  rcases h with hsame | ⟨-, hbusy⟩ | ⟨hidle, -⟩ | ⟨hdone, -⟩ | ⟨-, hdone⟩ | ⟨-, hidle⟩ | ⟨-, hidle⟩
  · exact absurd hsame.symm hr
  · nomatch hbusy
  · exact .inl hidle
  · exact .inr hdone
  · nomatch hdone
  · nomatch hidle
  · nomatch hidle

/-- The sequencer raises no error. -/
theorem sequencerTurn_not_into_error {s t : State} (h : sequencerTurn s = .next t) (hs : s.status.state ≠ .error) :
    t.status.state ≠ .error := by
  rcases (sequencerTurn_status h).2 with hsame | ⟨-, hdone⟩
  · rwa [hsame]
  · rw [hdone]; decide

/-- The host raises an error by a write to CMD alone. -/
theorem hostTurn_into_error {e : HostEvent} {s t : State} (h : hostTurn e s = .next t) (ht : t.status.state = .error)
    (hs : s.status.state ≠ .error) : ∃ v, e = .port (.write 32 0 v) ∧ cmdWrite v s = .next t := by
  rcases hostTurn_status h with hsame | ⟨-, rfl⟩ | ⟨_, v, rfl, ⟨rfl, hcmd⟩ | ⟨-, rfl, -⟩⟩
  · exact absurd (hsame ▸ ht) hs
  · nomatch ht
  · exact ⟨v, rfl, hcmd⟩
  · exact absurd ht hs

/-- Settles O51: the sequencer raises no error, of the host's turns only a CMD write does, and a CMD write keeps memory and the
configuration registers. -/
theorem errorsOnlyFromCommandWrites : Obligations.ErrorsOnlyFromCommandWrites := by
  intro s t hstep ht hs
  obtain ⟨rest, ⟨-, hturn⟩ | ⟨e, hagenda, hturn⟩⟩ := step_cases hstep
  · exact absurd ht (sequencerTurn_not_into_error hturn hs)
  · obtain ⟨v, rfl, hcmd⟩ := hostTurn_into_error hturn ht hs
    have hafter := cmdWrite_after hcmd
    have hmove : Transition s.status.state .error := ht ▸ hafter.transition
    obtain ⟨hcfg, -⟩ := hafter.kept
    exact ⟨hmove.into_error hs, ⟨v, rest, hagenda⟩, fun a => by rw [hafter.mem], hcfg⟩

end Sys2Proof.Machine

/-! PROOF. The statements of 70_reset_and_hazards.md: what the reset event sets and keeps (R210, R212), what it leaves of a
command it aborts (R211), and the output of a command that has ended (R224). -/

namespace Sys2Proof.Machine

/-! ### The end of a command (R224) -/

/-- A running command ends in DONE only by the ADVANCE of its last sub-block. -/
theorem step_into_done {s t : State} (h : s.Inv) (hbusy : s.status.state = .busy) (hstep : step s = .next t)
    (hdone : t.status.state = .done) :
    s.status.phase = .advance ∧ s.lastBlock = true ∧ ∃ rest, t = { s with
      blocksDone := s.blocksDone + 1
      status := { s.status with state := .done, phase := .none }
      agenda := rest } := by
  obtain ⟨rest, ⟨-, hturn⟩ | ⟨e, -, hturn⟩⟩ := step_cases hstep
  · have h' : State.Inv { s with agenda := rest } := h.of_unspoken s.status.ign s.pix s.acc s.ccode s.platform rest s.seen
    rcases sequencerTurn_stepsTaken (h'.running hbusy) hbusy hturn with ⟨hbusy', -⟩ | ⟨hphase, hlast, rfl⟩
    · exact nomatch hbusy'.symm.trans hdone
    · exact ⟨hphase, hlast, rest, rfl⟩
  · rcases hostTurn_of_busy hturn hbusy with ⟨-, rfl⟩ | ⟨a, v, -, rfl⟩ | ⟨_, _, _, _, _, rfl⟩
    · nomatch hdone
    · rw [State.hostWrite_status] at hdone
      nomatch hbusy.symm.trans hdone
    · nomatch hbusy.symm.trans hdone

/-- At that ADVANCE every byte of the output region has been written. -/
theorem State.Running.emitted_of_lastBlock {s : State} (h : s.Running) (hphase : s.status.phase = .advance)
    (hlast : s.lastBlock = true) : s.emitted = s.outLen.toNat :=
  (State.emitted_advance hphase).trans (h.outLen_of_lastBlock hlast).symm

/-- Settles O59: the ADVANCE that ends the command comes when the written bytes, right so far, are all of them. -/
theorem doneMeansOutputComplete : Obligations.DoneMeansOutputComplete := by
  intro s t h hright huntouched hbusy hstep hdone
  have hrunning := h.running hbusy
  obtain ⟨hphase, hlast, rest, rfl⟩ := step_into_done h hbusy hstep hdone
  have hblocks : (s.blocksDone + 1).toNat = s.cfg.subBlocks s.cursor.mode :=
    hrunning.cursor.toNat_blocksDone_succ.trans (hrunning.blocksDone_of_lastBlock hlast)
  refine ⟨hblocks, ?_, fun j hj => (hright hbusy huntouched).written j ?_⟩
  · rw [hblocks, hrunning.length, Cfg.reqLen_eq]
  · rwa [hrunning.emitted_of_lastBlock hphase hlast]

/-! ### The reset event (R210, R212) -/

theorem step_reset {s : State} {rest : List Turn} (ha : s.agenda = .host .reset :: rest) :
    step s = .next (State.resetEvent { s with agenda := rest }) := step_host ha

/-- Settles O7: `State.resetEvent` is `State.reset` in every register, and where no command runs it keeps the memory. -/
theorem resetEventSetsRegisters : Obligations.ResetEventSetsRegisters := by
  intro s rest ha
  refine ⟨_, step_reset ha, rfl, rfl, rfl, rfl, rfl, fun hidle a => ?_⟩
  rw [State.resetEvent_mem, if_neg hidle]

/-! ### A reset that aborts a command (R211) -/

theorem State.abortedByte_cases (s : State) (j : Nat) :
    s.abortedByte j = s.mem.read (s.cfg.outBase.toNat + j) ∨ s.abortedByte j = s.commandByte j := by
  unfold State.abortedByte
  split
  · exact .inl rfl
  · exact .inr rfl

/-- R211 without any duty of the host: each write of the abort stores the drawn byte of its own address, so whatever was stored
before it, an output byte stands as it was or is the one the command would have written. -/
theorem State.abortedMem_output {s : State} (h : s.mem.wf) (j : Nat) :
    s.abortedMem.read (s.cfg.outBase.toNat + j) = s.mem.read (s.cfg.outBase.toNat + j) ∨
      s.abortedMem.read (s.cfg.outBase.toNat + j) = s.commandByte j := by
  unfold State.abortedMem
  refine (List.foldlRecOn (motive := fun m : Memory => m.wf ∧
    (m.read (s.cfg.outBase.toNat + j) = s.mem.read (s.cfg.outBase.toNat + j) ∨
      m.read (s.cfg.outBase.toNat + j) = s.commandByte j)) _ _ ⟨h, .inl rfl⟩ ?_).2
  rintro m ⟨hm, hread⟩ i -
  split
  next haddr =>
    refine ⟨Memory.write_wf _ _ _ hm haddr, ?_⟩
    by_cases hij : i = j
    · rw [hij, Memory.read_write_same _ _ _ hm]
      exact s.abortedByte_cases j
    · rwa [Memory.read_write_other _ _ _ _ hm (by omega)]
  next => exact ⟨hm, hread⟩

/-- While the output is right so far, an output byte is the one from before the command or the one the rules give. -/
theorem State.DataOk.output_cases {s : State} (h : s.DataOk) {j : Nat} (hj : j < s.outLen.toNat) :
    s.mem.read (s.cfg.outBase.toNat + j) = s.race.memBefore.read (s.cfg.outBase.toNat + j) ∨
      s.mem.read (s.cfg.outBase.toNat + j) = s.outputByte j := by
  rcases Nat.lt_or_ge j s.emitted with hwritten | hpending
  · exact .inr (h.written j hwritten)
  · exact .inl (h.untilNow j hpending hj)

/-- Settles O8: each output byte is the old one or the command's, and where the host kept its duties the old one is right so far
and the command's is the one the rules give; outside the region a reset changes nothing. -/
theorem abortLeavesOldOrNewBytes : Obligations.AbortLeavesOldOrNewBytes := by
  intro s t rest h hbusy ha hstep
  have ht : t.mem = State.abortedMem { s with agenda := rest } := by
    cases (step_reset ha).symm.trans hstep
    exact (State.resetEvent_mem _).trans (if_pos hbusy)
  have hbyte := State.abortedMem_output (s := { s with agenda := rest }) h.memWf
  rw [← ht] at hbyte
  refine ⟨fun j _ => hbyte j, fun a hout => ?_, fun hright huntouched j hj => ?_⟩
  · rw [ht]
    exact State.abortedMem_outside (s := { s with agenda := rest }) h.memWf hout
  · have hdata := hright hbusy huntouched
    rcases hbyte j with hold | hnew
    · rw [hold]
      exact hdata.output_cases hj
    · exact .inr (hnew.trans (hdata.commandByte (h.running hbusy) huntouched j))

end Sys2Proof.Machine
